-- ==== Sys2Proof/Word.lean ====
section
/-! DEFINITION. The bit-vector types of the core: every value the spec gives a width is a bit vector of
that width, unsigned (spec/00_scope.md R11). -/
namespace Sys2Proof

/-- An 8-bit value: a register V[i], a timer, a memory byte, an immediate `nn`. -/
abbrev Byte := BitVec 8

/-- A 16-bit value: an instruction word, `pc`, `I`, a stack slot, a fault record. -/
abbrev Word := BitVec 16

/-- A 4-bit field: a register index `x` or `y`, a sprite height `n`, a key value `k` (R71, R221). -/
abbrev Nibble := BitVec 4

/-- A 12-bit address field `nnn` (R71). -/
abbrev Addr12 := BitVec 12

end Sys2Proof
end

