-- ==== Sys2Proof/Config.lean ====
section
/-! DEFINITION. The constants the source fixes (spec/00_scope.md R7), the parameters it leaves open with the
spec's defaults (R8), and the one free value, the random byte of CXNN (spec/40_cycle.md R109). -/
namespace Sys2Proof

namespace Config

/-- `MEM_SIZE`: addresses 0x000 to 0xFFF (R7). -/
abbrev memSize : Nat := 4096

/-- `PROGRAM_START`: where execution starts and where `load` puts its image (R7, R273). -/
abbrev programStart : Nat := 0x200

/-- `ROM_CAPACITY` = 4096 − 0x200 (R7). -/
abbrev romCapacity : Nat := 3584

/-- `GLYPH_COUNT` × `GLYPH_BYTES` (R7). -/
abbrev fontSize : Nat := 80

/-- The random byte that the k-th CXNN of a run draws: the input `rnd` of that step (R109, R154).
A FREE VALUE: no body, so nothing can be proved of it; log entry 2 (DESIGN CHOICE). -/
opaque rndByte : Nat → Byte

/-- Font glyph 0, the one glyph the source gives: F0 90 90 90 F0 (spec/10_state.md R33). -/
def glyph0 : Vector Byte 5 := #v[0xF0, 0x90, 0x90, 0x90, 0xF0]

/-- The default glyphs 1 to F, `FONT_TABLE`'s other 15 rows (R33).
PRESUMED: the spec takes them from general knowledge of CHIP-8; log entry 5, unsafe. -/
def defaultGlyphs : Vector (Vector Byte 5) 15 :=
  #v[#v[0x20, 0x60, 0x20, 0x20, 0x70], #v[0xF0, 0x10, 0xF0, 0x80, 0xF0], #v[0xF0, 0x10, 0xF0, 0x10, 0xF0],
     #v[0x90, 0x90, 0xF0, 0x10, 0x10], #v[0xF0, 0x80, 0xF0, 0x10, 0xF0], #v[0xF0, 0x80, 0xF0, 0x90, 0xF0],
     #v[0xF0, 0x10, 0x20, 0x40, 0x40], #v[0xF0, 0x90, 0xF0, 0x90, 0xF0], #v[0xF0, 0x90, 0xF0, 0x10, 0xF0],
     #v[0xF0, 0x90, 0xF0, 0x90, 0x90], #v[0xE0, 0x90, 0xE0, 0x90, 0xE0], #v[0xF0, 0x80, 0x80, 0x80, 0xF0],
     #v[0xE0, 0x90, 0x90, 0x90, 0xE0], #v[0xF0, 0x80, 0xF0, 0x80, 0xF0], #v[0xF0, 0x80, 0xF0, 0x80, 0x80]]

end Config

/-- `PC_CHECK` (R8, R102): what the fetch check enforces. -/
inductive PcCheck where
  | invariant
  | boundsOnly
deriving DecidableEq, Repr

/-- `KEY_INDEX_POLICY` (R8, R212): what EX9E and EXA1 do with a VX above 0x0F. -/
inductive KeyIndexPolicy where
  | fault
  | mask
deriving DecidableEq, Repr

/-- `FONT_WRITE_POLICY` (R8, R54): what FX33 and FX55 do when they reach the font region. -/
inductive FontWritePolicy where
  | fault
  | allow
deriving DecidableEq, Repr

/-- The five open parameters (R8). The types admit exactly the legal values: `FONT_BASE + 80 <= 0x200` is
`fontBase < 433`, and glyph 0 is not among the glyphs a table may choose. Log entry 1. -/
structure Params where
  pcCheck         : PcCheck
  keyIndexPolicy  : KeyIndexPolicy
  fontWritePolicy : FontWritePolicy
  fontBase        : Fin 433
  glyphs          : Vector (Vector Byte 5) 15
deriving DecidableEq, Repr

/-- The spec's default of each parameter (R8). -/
def Params.default : Params where
  pcCheck         := .invariant
  keyIndexPolicy  := .fault
  fontWritePolicy := .fault
  fontBase        := 0x050
  glyphs          := Config.defaultGlyphs

end Sys2Proof
end

