-- ==== Sys2Proof/Machine/State.lean ====
section
/-! DEFINITION. The machine's state as plain data (spec/10_state.md R20 to R42) and its reset value
(spec/70_reset_and_hazards.md R270, R271). -/
namespace Sys2Proof.Machine

/-- The fault codes of R240. A fatal error of the spec is a NEXT state whose `execState` is
`halted code info` (R242), so these are the codes that state carries; no meaning and no step ends in
`Outcome.fault` (log entry 3, safe). -/
inductive Fault where
  /-- Code 1. `step` on an illegal word (R84, R104); info is the word. Safe: the spec's own entry. -/
  | decodeError
  /-- Code 2. An access above 0xFFF by fetch, DXYN, FX33, FX55 or FX65 (R52); info is the lowest offending
  address. Safe: the spec's own entry. -/
  | boundsError
  /-- Code 3. 00EE with `SP = 0` (R120); info is `pc`. Safe: the spec's own entry. -/
  | stackUnderflow
  /-- Code 4. 2NNN with `SP = 16` (R122); info is `pc`. Safe: the spec's own entry. -/
  | stackOverflow
  /-- Code 5. Fetch under `PC_CHECK = invariant` (R102); info is `pc`. Safe: spec decision D2. -/
  | pcFault
  /-- Code 6. EX9E, EXA1 with VX > 0xF under `KEY_INDEX_POLICY = fault` (R212); info is VX. Safe: spec
  decision D6. -/
  | keyIndexFault
  /-- Code 7. FX33, FX55 reaching the font region under `FONT_WRITE_POLICY = fault` (R54); info is the lowest
  offending address. Safe: spec decision D7. -/
  | fontWriteFault
deriving DecidableEq, Repr

/-- Reasons to refuse an instruction. No arm of `exec` uses one: all 34 instructions have their meaning. -/
inductive Refusal where
  /-- An instruction with no meaning yet, raised by its arm of `exec` alone. Safe. -/
  | notModelled (mnemonic : String)
deriving DecidableEq, Repr

/-- `exec_state` (R37): exactly one of three forms. -/
inductive ExecState where
  /-- `step` fetches and executes. -/
  | executing
  /-- `step` does nothing until a key press writes the key value into V[t]. -/
  | waitingForKey (t : Nibble)
  /-- A fatal error ended the run. -/
  | halted (code : Fault) (info : Word)
deriving DecidableEq, Repr

/-- Memory `M` (R31): the bytes that differ from the reset contents, by rising address. An unlisted address
reads as its reset contents; log entry 10. -/
abbrev Memory := List Host.Cell

/-- The framebuffer `FB[X][Y]` (R34): column X (0..63), then row Y (0..31). -/
abbrev Frame := Vector (Vector Bool 32) 64

/-- Everything R20 lists, and two fields of the model's own: the open parameters (R8, log entry 1) and the
count of random bytes drawn (R109, log entry 2). -/
structure State where
  /-- the model's own field: the open parameters, which nothing changes (R8) -/
  params    : Params
  /-- `M`, 4096 bytes (R31) -/
  mem       : Memory
  /-- `V[0..15]`, with VF = V[15] (R21, R22) -/
  v         : Vector Byte 16
  /-- `I` (R26) -/
  i         : Word
  /-- `pc` (R24) -/
  pc        : Word
  /-- `STACK[0..15]`, apart from memory (R27) -/
  stack     : Vector Word 16
  /-- `SP`, 0..16: how many return addresses the stack holds (R28) -/
  sp        : Fin 17
  /-- `DT` (R29) -/
  dt        : Byte
  /-- `ST` (R30) -/
  st        : Byte
  /-- `FB` (R34) -/
  fb        : Frame
  /-- `KEY[0..15]`, true when pressed (R35) -/
  key       : Vector Bool 16
  /-- `dirty` (R36) -/
  dirty     : Bool
  /-- `exec_state` (R37) -/
  execState : ExecState
  /-- the model's own field: the index of the next free random byte (R109) -/
  rndCount  : Nat
deriving DecidableEq, Repr

/-- The framebuffer with every pixel 0. -/
def Frame.blank : Frame := Vector.replicate 64 (Vector.replicate 32 false)

/-- The machine right after `power_on` (R270, R271), with the default parameters (R8). Memory lists nothing:
it reads as zeros and the font. -/
def State.reset : State where
  params    := Params.default
  mem       := []
  v         := Vector.replicate 16 0
  i         := 0
  pc        := 0x200
  stack     := Vector.replicate 16 0
  sp        := 0
  dt        := 0
  st        := 0
  fb        := Frame.blank
  key       := Vector.replicate 16 false
  dirty     := false
  execState := .executing
  rndCount  := 0

/-- What one step or one meaning answers. -/
abbrev Result := Host.Outcome State Fault Refusal

end Sys2Proof.Machine
end

