-- ==== Sys2Proof/Machine/Ops.lean ====
section
/-! DEFINITION. The named operations over memory, registers, stack, framebuffer and execution state, with their
checks (spec/20_memory.md R52 to R57, spec/43_index_memory.md R174) and the one way to raise a fatal error
(spec/60_exceptions.md R242). -/
namespace Sys2Proof.Machine

/-! ### The font and the reset contents of memory -/

/-- Glyph `k` of FONT_TABLE: glyph 0 is fixed by the source, the rest are the parameter (R33). -/
def fontGlyph (p : Params) (k : Fin 16) : Vector Byte 5 :=
  if h : k.val = 0 then Config.glyph0 else p.glyphs[k.val - 1]'(by omega)

/-- Byte `j` of FONT_TABLE, `0 <= j < 80`: five bytes a glyph, row 0 first (R32). -/
def fontByte (p : Params) (j : Nat) (h : j < Config.fontSize) : Byte :=
  (fontGlyph p ⟨j / 5, by simp only [Config.fontSize] at h; omega⟩)[j % 5]'(Nat.mod_lt _ (by decide))

/-- Whether `FONT_BASE <= a < FONT_BASE + 80` (R32, R54). -/
def inFontRegion (p : Params) (a : Nat) : Bool :=
  decide (p.fontBase.val ≤ a ∧ a < p.fontBase.val + Config.fontSize)

/-- What an unlisted address reads as: the reset contents, FONT_TABLE in the font region and 0 elsewhere
(R31, R271). -/
def resetByte (p : Params) (a : Nat) : Byte :=
  if h : p.fontBase.val ≤ a ∧ a < p.fontBase.val + Config.fontSize then
    fontByte p (a - p.fontBase.val) (by omega)
  else 0

/-! ### Memory as a canonical list -/

/-- The listed byte of an address, if there is one. -/
def Memory.lookup : Memory → Nat → Option Byte
  | [], _ => none
  | (b, w) :: m, a => if a = b then some w else Memory.lookup m a

/-- The byte at an address. -/
def Memory.read (p : Params) (m : Memory) (a : Nat) : Byte := (Memory.lookup m a).getD (resetByte p a)

/-- Lists a byte at its place in the order. -/
def Memory.insert : Memory → Nat → Byte → Memory
  | [], a, v => [(a, v)]
  | (b, w) :: m, a, v =>
    if a < b then (a, v) :: (b, w) :: m
    else if a = b then (a, v) :: m
    else (b, w) :: Memory.insert m a v

/-- Unlists an address. -/
def Memory.erase (m : Memory) (a : Nat) : Memory := m.filter fun c => c.1 != a

/-- `M[a] <- v`, keeping the canonical form: a byte equal to the reset contents is not listed. -/
def Memory.write (p : Params) (m : Memory) (a : Nat) (v : Byte) : Memory :=
  if v = resetByte p a then Memory.erase m a else Memory.insert m a v

/-- The canonical form from an address up: rising addresses inside memory, and no byte that equals the reset
contents. -/
def Memory.wfFrom (p : Params) : Nat → Memory → Bool
  | _, [] => true
  | lo, (a, v) :: m =>
    decide (lo ≤ a) && decide (a < Config.memSize) && decide (v ≠ resetByte p a) && Memory.wfFrom p (a + 1) m

/-- The canonical form of memory. -/
def Memory.wf (p : Params) (m : Memory) : Bool := Memory.wfFrom p 0 m

/-- `M[a]`. -/
def State.readByte (s : State) (a : Nat) : Byte := Memory.read s.params s.mem a

/-- `M[a] <- v`, past the checks. -/
def State.writeByte (s : State) (a : Nat) (v : Byte) : State :=
  { s with mem := Memory.write s.params s.mem a v }

/-- Writes bytes at `a`, `a + 1`, and so on. -/
def State.storeBytes (s : State) (a : Nat) : List Byte → State
  | [] => s
  | b :: bs => (s.writeByte a b).storeBytes (a + 1) bs

/-- The `k` bytes at `a`, `a + 1`, and so on. -/
def State.readBytes (s : State) (a : Nat) : Nat → List Byte
  | 0 => []
  | k + 1 => s.readByte a :: s.readBytes (a + 1) k

/-! ### Access checks -/

/-- The check of one read: `a > 0xFFF` is a BOUNDS_ERROR (R52). -/
def readFault (a : Nat) : Option Fault := if a > 0xFFF then some .boundsError else none

/-- The check of one write by an instruction: bounds first, then the font region under
`FONT_WRITE_POLICY = fault` (R52, R54, R244). -/
def writeFault (p : Params) (a : Nat) : Option Fault :=
  if a > 0xFFF then some .boundsError
  else if p.fontWritePolicy = .fault ∧ inFontRegion p a = true then some .fontWriteFault
  else none

/-- A block-access check of the `k` addresses from `a`: the first failing address decides the fault and is its
record (R174). -/
def checkBlock (check : Nat → Option Fault) (a : Nat) : Nat → Option (Fault × Word)
  | 0 => none
  | k + 1 =>
    match check a with
    | some f => some (f, BitVec.ofNat 16 a)
    | none => checkBlock check (a + 1) k

/-- `check_reads(a, k)` (R174). -/
def checkReads (a k : Nat) : Option (Fault × Word) := checkBlock readFault a k

/-- `check_writes(a, k)` (R174). -/
def checkWrites (p : Params) (a k : Nat) : Option (Fault × Word) := checkBlock (writeFault p) a k

/-! ### Registers -/

/-- Reads `V[x]` (R21, R74). -/
def State.getV (s : State) (x : Nibble) : Byte := s.v[x.toNat]

/-- `V[x] <- b` (R21). -/
def State.setV (s : State) (x : Nibble) (b : Byte) : State := { s with v := s.v.set x.toNat b }

/-- `I <- w` (R26). -/
def State.setI (s : State) (w : Word) : State := { s with i := w }

/-- `pc <- w` (R24). -/
def State.setPc (s : State) (w : Word) : State := { s with pc := w }

/-- `DT <- b` (R29). -/
def State.setDt (s : State) (b : Byte) : State := { s with dt := b }

/-- `ST <- b` (R30). -/
def State.setSt (s : State) (b : Byte) : State := { s with st := b }

/-- `KEY[k] <- pressed` (R35). -/
def State.setKeyLatch (s : State) (k : Nibble) (pressed : Bool) : State :=
  { s with key := s.key.set k.toNat pressed }

/-- `dirty <- b` (R36). -/
def State.setDirty (s : State) (b : Bool) : State := { s with dirty := b }

/-- `exec_state <- e` (R37). -/
def State.setExecState (s : State) (e : ExecState) : State := { s with execState := e }

/-- `V[j] <- M[a + j]` for every j below `k`, the other registers unchanged (R176). -/
def State.loadRegs (s : State) (a k : Nat) : State :=
  { s with v := Vector.ofFn fun j => if j.val < k then s.readByte (a + j.val) else s.v[j] }

/-- The random byte of this step; the count moves on, so that the next draw is another free value (R109). -/
def State.drawRnd (s : State) : Byte × State :=
  (Config.rndByte s.rndCount, { s with rndCount := s.rndCount + 1 })

/-! ### The call stack -/

/-- `STACK[SP] <- w; SP <- SP + 1`; nothing when the stack is full (R28, R122). -/
def State.push (s : State) (w : Word) : Option State :=
  if h : s.sp.val < 16 then
    some { s with stack := s.stack.set s.sp.val w, sp := ⟨s.sp.val + 1, by omega⟩ }
  else none

/-- `SP <- SP - 1` and the value of `STACK[SP]`, whose slot is kept; nothing when the stack is empty
(R27, R28, R120). -/
def State.pop (s : State) : Option (Word × State) :=
  if h : 0 < s.sp.val then
    some (s.stack[s.sp.val - 1]'(by omega), { s with sp := ⟨s.sp.val - 1, by omega⟩ })
  else none

/-! ### The framebuffer -/

/-- `FB[X][Y]`; false off the screen. -/
def Frame.pixel (f : Frame) (x y : Nat) : Bool :=
  if h : x < 64 ∧ y < 32 then (f[x]'h.1)[y]'h.2 else false

/-- `FB[X][Y] <- b`; nothing off the screen (R192, clipping). -/
def Frame.put (f : Frame) (x y : Nat) (b : Bool) : Frame :=
  if h : x < 64 ∧ y < 32 then f.set x ((f[x]'h.1).set y b h.2) h.1 else f

/-- Bit `p` of column `c` of a sprite byte: bit 7 is column 0 (R193).
PRESUMED: the spec takes the order from general knowledge; log entry 6, unsafe. -/
def spriteBit (row : Byte) (c : Nat) : Bool := row.getLsbD (7 - c)

/-- XORs one sprite bit that is 1 into the frame and notes a collision, if it is on the screen (R192, R194). -/
def drawPixel (x y : Nat) (acc : Frame × Bool) : Frame × Bool :=
  if x < 64 ∧ y < 32 then (acc.1.put x y (!acc.1.pixel x y), acc.2 || acc.1.pixel x y) else acc

/-- Draws the columns below `k` of one sprite row (R192). -/
def drawColumns (row : Byte) (x0 y : Nat) : Nat → Frame × Bool → Frame × Bool
  | 0, acc => acc
  | c + 1, acc =>
    let acc := drawColumns row x0 y c acc
    if spriteBit row c = true then drawPixel (x0 + c) y acc else acc

/-- Draws sprite rows downwards from screen row `y`, eight columns each (R192). -/
def drawRows (x0 : Nat) : Nat → List Byte → Frame × Bool → Frame × Bool
  | _, [], acc => acc
  | y, row :: rows, acc => drawRows x0 (y + 1) rows (drawColumns row x0 y 8 acc)

/-- `FB <- f`. -/
def State.setFrame (s : State) (f : Frame) : State := { s with fb := f }

/-! ### Fatal errors -/

/-- TAKING A FATAL ERROR `raise F(info)` (R242): the only change is `exec_state <- Halted(F, info)`; `pc` keeps
the address of the faulting instruction. There is no return from it (R243, R246). -/
def State.raise (s : State) (f : Fault) (info : Word) : State :=
  s.setExecState (.halted f info)

/-- The numeric code of a fault (R240). UNVERIFIED as the block's: the numbers are the spec's names (D12). -/
def faultNumber : Fault → Nat
  | .decodeError => 1
  | .boundsError => 2
  | .stackUnderflow => 3
  | .stackOverflow => 4
  | .pcFault => 5
  | .keyIndexFault => 6
  | .fontWriteFault => 7

end Sys2Proof.Machine
end

