-- ==== Sys2Proof/Machine/Flags.lean ====
section
/-! DEFINITION. 8-bit arithmetic on unbounded naturals, narrowed at the end (spec/42_alu.md R140), and the flag
values VF receives (R40, R148 to R153). -/
namespace Sys2Proof.Machine

/-- The flag value of a condition: 1 or 0. -/
def flagOf (c : Bool) : Byte := if c = true then 1 else 0

/-- `(a + b) mod 256` (R140). -/
def addWrap (a b : Byte) : Byte := BitVec.ofNat 8 ((a.toNat + b.toNat) % 256)

/-- `(a + 256 - b) mod 256` (R140). -/
def subWrap (a b : Byte) : Byte := BitVec.ofNat 8 ((a.toNat + 256 - b.toNat) % 256)

/-- The carry of 8XY4: 1 if the sum exceeds 255 (R148). -/
def carryFlag (a b : Byte) : Byte := flagOf (decide (a.toNat + b.toNat > 255))

/-- The not-borrow of `a - b`: 1 if `a >= b` (R149, R150, R152). -/
def noBorrowFlag (a b : Byte) : Byte := flagOf (decide (a.toNat ≥ b.toNat))

/-- `a >> 1` (R151). -/
def shiftRight1 (a : Byte) : Byte := a >>> 1

/-- `(a << 1) mod 256` (R153). -/
def shiftLeft1 (a : Byte) : Byte := a <<< 1

/-- Bit 0 before the shift (R151). -/
def lowBitFlag (a : Byte) : Byte := a &&& 1

/-- Bit 7 before the shift (R153). -/
def highBitFlag (a : Byte) : Byte := (a >>> 7) &&& 1

/-- `V[x] <- r; V[15] <- f`: the result first and the flag last, so that the flag wins when `x = 15` (R141). -/
def State.setVWithFlag (s : State) (x : Nibble) (r f : Byte) : State := (s.setV x r).setV 0xF#4 f

end Sys2Proof.Machine
end

