-- ==== Sys2Proof/Machine/Operands.lean ====
section
/-! DEFINITION. The operand forms: immediates (spec/30_encoding.md R73), effective addresses from `I`
(spec/20_memory.md R53), the font address (spec/43_index_memory.md R172), the key index
(spec/45_timers_input.md R212), and the program counter's next values (spec/00_scope.md R14). -/
namespace Sys2Proof.Machine

/-- `npc = pc + 2` (R14). After a passed fetch check it does not wrap (R106); log entry 9. -/
def State.npc (s : State) : Word := s.pc + 2

/-- `pc <- npc`, the default update (R105). -/
def State.advance (s : State) : State := s.setPc s.npc

/-- `skip_if(c)`: `pc <- (c ? npc + 2 : npc)` (R14, R127). -/
def State.skipIf (s : State) (c : Bool) : State := s.setPc (if c = true then s.npc + 2 else s.npc)

/-- `zext_16(nnn)` (R73). -/
def zextAddr (nnn : Addr12) : Word := nnn.setWidth 16

/-- `zext_16` of an 8-bit value. -/
def zextByte (b : Byte) : Word := b.setWidth 16

/-- The effective address `I` as an unbounded natural, to which offsets are added without wrapping (R53). -/
def State.baseAddr (s : State) : Nat := s.i.toNat

/-- `FONT_BASE + 5 * (v & 0x0F)`: the address of a glyph (R172). -/
def glyphAddr (p : Params) (v : Byte) : Word := BitVec.ofNat 16 (p.fontBase.val + 5 * (v.toNat % 16))

/-- `key_index(v)`: nothing when it raises KEY_INDEX_FAULT (R212). -/
def keyIndex (p : Params) (v : Byte) : Option Nibble :=
  if v.toNat ≤ 0x0F then some (v.setWidth 4)
  else
    match p.keyIndexPolicy with
    | .fault => none
    | .mask => some (v.setWidth 4)

/-- The three decimal digits of a byte, most significant first (R173). -/
def decimalDigits (v : Byte) : List Byte :=
  [BitVec.ofNat 8 (v.toNat / 100), BitVec.ofNat 8 (v.toNat / 10 % 10), BitVec.ofNat 8 (v.toNat % 10)]

/-- The values of V0..VX, inclusive (R175). -/
def State.regsUpTo (s : State) (x : Nibble) : List Byte := s.v.toList.take (x.toNat + 1)

/-- Ends an instruction with a fatal error if its check failed, else with the state it computes; the check is
made before any write (R174, R242). -/
def State.checked (s : State) (check : Option (Fault × Word)) (ok : State) : Result :=
  match check with
  | some (f, info) => .next (s.raise f info)
  | none => .next ok

end Sys2Proof.Machine
end

