-- ==== Sys2Proof/Machine/Alu.lean ====
section
/-! DEFINITION. The ALU: 6XNN, 7XNN, 8XY0 to 8XY7, 8XYE, CXNN (spec/42_alu.md). Operands are read before any
write (R141) and every rule ends with `pc <- npc` (R105). -/
namespace Sys2Proof.Machine

/-- 6XNN LD Vx, byte (R142). -/
def execLdImm (x : Nibble) (nn : Byte) (s : State) : Result := .next (s.setV x nn).advance

/-- 7XNN ADD Vx, byte: wraps, no flag (R143). -/
def execAddImm (x : Nibble) (nn : Byte) (s : State) : Result :=
  .next (s.setV x (addWrap (s.getV x) nn)).advance

/-- 8XY0 LD Vx, Vy (R144). -/
def execLdReg (x y : Nibble) (s : State) : Result := .next (s.setV x (s.getV y)).advance

/-- 8XY1 OR Vx, Vy: no flag (R145). -/
def execOrReg (x y : Nibble) (s : State) : Result := .next (s.setV x (s.getV x ||| s.getV y)).advance

/-- 8XY2 AND Vx, Vy: no flag (R146). -/
def execAndReg (x y : Nibble) (s : State) : Result := .next (s.setV x (s.getV x &&& s.getV y)).advance

/-- 8XY3 XOR Vx, Vy: no flag (R147). -/
def execXorReg (x y : Nibble) (s : State) : Result := .next (s.setV x (s.getV x ^^^ s.getV y)).advance

/-- 8XY4 ADD Vx, Vy: VF is the carry (R148). -/
def execAddReg (x y : Nibble) (s : State) : Result :=
  let a := s.getV x
  let b := s.getV y
  .next (s.setVWithFlag x (addWrap a b) (carryFlag a b)).advance

/-- 8XY5 SUB Vx, Vy: VX − VY, VF is the not-borrow (R149). -/
def execSub (x y : Nibble) (s : State) : Result :=
  let a := s.getV x
  let b := s.getV y
  .next (s.setVWithFlag x (subWrap a b) (noBorrowFlag a b)).advance

/-- 8XY6 SHR Vx, Vy: shifts VX, VY is not read (R151). -/
def execShr (x _y : Nibble) (s : State) : Result :=
  let a := s.getV x
  .next (s.setVWithFlag x (shiftRight1 a) (lowBitFlag a)).advance

/-- 8XY7 SUBN Vx, Vy: VY − VX, VF is the not-borrow (R152). -/
def execSubn (x y : Nibble) (s : State) : Result :=
  let a := s.getV x
  let b := s.getV y
  .next (s.setVWithFlag x (subWrap b a) (noBorrowFlag b a)).advance

/-- 8XYE SHL Vx, Vy: shifts VX, VY is not read (R153). -/
def execShl (x _y : Nibble) (s : State) : Result :=
  let a := s.getV x
  .next (s.setVWithFlag x (shiftLeft1 a) (highBitFlag a)).advance

/-- CXNN with a given input `rnd` (R154). -/
def State.rndWith (s : State) (rnd : Byte) (x : Nibble) (nn : Byte) : State := (s.setV x (rnd &&& nn)).advance

/-- CXNN RND Vx, byte: `rnd` is a free value (R109, R154; log entry 2). -/
def execRnd (x : Nibble) (nn : Byte) (s : State) : Result :=
  .next (s.drawRnd.2.rndWith s.drawRnd.1 x nn)

end Sys2Proof.Machine
end

