-- ==== Sys2Proof/Machine/ControlFlow.lean ====
section
/-! DEFINITION. Control flow: 00EE, 1NNN, 2NNN, 3XNN, 4XNN, 5XY0, 9XY0, BNNN (spec/41_control_flow.md). -/
namespace Sys2Proof.Machine

/-- 00EE RET (R120). -/
def execRet (s : State) : Result :=
  match s.pop with
  | none => .next (s.raise .stackUnderflow s.pc)
  | some (target, t) => .next (t.setPc target)

/-- 1NNN JP addr (R121). -/
def execJp (nnn : Addr12) (s : State) : Result := .next (s.setPc (zextAddr nnn))

/-- 2NNN CALL addr (R122). -/
def execCall (nnn : Addr12) (s : State) : Result :=
  match s.push s.npc with
  | none => .next (s.raise .stackOverflow s.pc)
  | some t => .next (t.setPc (zextAddr nnn))

/-- 3XNN SE Vx, byte (R123). -/
def execSeImm (x : Nibble) (nn : Byte) (s : State) : Result := .next (s.skipIf (decide (s.getV x = nn)))

/-- 4XNN SNE Vx, byte (R124). -/
def execSneImm (x : Nibble) (nn : Byte) (s : State) : Result := .next (s.skipIf (decide (s.getV x ≠ nn)))

/-- 5XY0 SE Vx, Vy (R125). -/
def execSeReg (x y : Nibble) (s : State) : Result := .next (s.skipIf (decide (s.getV x = s.getV y)))

/-- 9XY0 SNE Vx, Vy (R126). -/
def execSneReg (x y : Nibble) (s : State) : Result := .next (s.skipIf (decide (s.getV x ≠ s.getV y)))

/-- BNNN JP V0, addr: always V0, no wrap modulo 4096 (R128). -/
def execJpV0 (nnn : Addr12) (s : State) : Result :=
  .next (s.setPc (zextByte (s.getV 0#4) + zextAddr nnn))

end Sys2Proof.Machine
end

