-- ==== Sys2Proof/Machine/Display.lean ====
section
/-! DEFINITION. The display: 00E0 and DXYN (spec/44_display.md). -/
namespace Sys2Proof.Machine

/-- 00E0 CLS: every pixel 0, `dirty` set even if the screen was clear (R191). -/
def execCls (s : State) : Result := .next ((s.setFrame Frame.blank).setDirty true).advance

/-- What DXYN draws: the frame and the collision bit. The start position wraps, the body clips (R192). -/
def State.drawn (s : State) (x y n : Nibble) : Frame × Bool :=
  drawRows ((s.getV x).toNat % 64) ((s.getV y).toNat % 32) (s.readBytes s.baseAddr n.toNat) (s.fb, false)

/-- DXYN DRW Vx, Vy, nibble: all `n` bytes are checked, clipped rows too (R192). -/
def execDrw (x y n : Nibble) (s : State) : Result :=
  let d := s.drawn x y n
  s.checked (checkReads s.baseAddr n.toNat)
    (((s.setFrame d.1).setV 0xF#4 (flagOf d.2)).setDirty true).advance

end Sys2Proof.Machine
end

