-- ==== Sys2Proof/Machine/IndexMemory.lean ====
section
/-! DEFINITION. The index register and memory: ANNN, FX1E, FX29, FX33, FX55, FX65 (spec/43_index_memory.md).
None of the memory instructions changes `I` (R174). -/
namespace Sys2Proof.Machine

/-- ANNN LD I, addr (R170). -/
def execLdI (nnn : Addr12) (s : State) : Result := .next (s.setI (zextAddr nnn)).advance

/-- FX1E ADD I, Vx: modulo 65536, no flag, no fault (R171; log entry 7). -/
def execAddIVx (x : Nibble) (s : State) : Result :=
  .next (s.setI (BitVec.ofNat 16 ((s.i.toNat + (s.getV x).toNat) % 65536))).advance

/-- FX29 LD F, Vx (R172). -/
def execLdFVx (x : Nibble) (s : State) : Result :=
  .next (s.setI (glyphAddr s.params (s.getV x))).advance

/-- FX33 LD B, Vx: the decimal digits at I, I+1, I+2 (R173). -/
def execLdBVx (x : Nibble) (s : State) : Result :=
  s.checked (checkWrites s.params s.baseAddr 3)
    (s.storeBytes s.baseAddr (decimalDigits (s.getV x))).advance

/-- FX55 LD [I], Vx: stores V0..VX (R175). -/
def execStRegs (x : Nibble) (s : State) : Result :=
  s.checked (checkWrites s.params s.baseAddr (x.toNat + 1))
    (s.storeBytes s.baseAddr (s.regsUpTo x)).advance

/-- FX65 LD Vx, [I]: loads V0..VX (R176). -/
def execLdRegs (x : Nibble) (s : State) : Result :=
  s.checked (checkReads s.baseAddr (x.toNat + 1))
    (s.loadRegs s.baseAddr (x.toNat + 1)).advance

end Sys2Proof.Machine
end

