-- ==== Sys2Proof/Machine/KeysTimers.lean ====
section
/-! DEFINITION. Keys and timers: EX9E, EXA1, FX07, FX0A, FX15, FX18 (spec/45_timers_input.md). -/
namespace Sys2Proof.Machine

/-- `KEY[k] = 1` (R35). -/
def State.keyPressed (s : State) (k : Nibble) : Bool := s.key[k.toNat]

/-- EX9E SKP Vx (R210). -/
def execSkp (x : Nibble) (s : State) : Result :=
  match keyIndex s.params (s.getV x) with
  | none => .next (s.raise .keyIndexFault (zextByte (s.getV x)))
  | some k => .next (s.skipIf (s.keyPressed k))

/-- EXA1 SKNP Vx (R211). -/
def execSknp (x : Nibble) (s : State) : Result :=
  match keyIndex s.params (s.getV x) with
  | none => .next (s.raise .keyIndexFault (zextByte (s.getV x)))
  | some k => .next (s.skipIf (!s.keyPressed k))

/-- FX07 LD Vx, DT (R213). -/
def execLdVxDt (x : Nibble) (s : State) : Result := .next (s.setV x s.dt).advance

/-- FX0A LD Vx, K: waits for a key, with `pc` already past the instruction (R214). -/
def execLdVxK (x : Nibble) (s : State) : Result := .next (s.setExecState (.waitingForKey x)).advance

/-- FX15 LD DT, Vx (R215). -/
def execLdDtVx (x : Nibble) (s : State) : Result := .next (s.setDt (s.getV x)).advance

/-- FX18 LD ST, Vx (R216). -/
def execLdStVx (x : Nibble) (s : State) : Result := .next (s.setSt (s.getV x)).advance

end Sys2Proof.Machine
end

