-- ==== Sys2Proof/Syntax.lean ====
section
/-! DEFINITION. The instruction set: one constructor per row of spec/opcode_table.json, its operands the
fields of that row's format (spec/30_encoding.md R71, R72, R89). -/
namespace Sys2Proof

/-- The row names of the opcode table (R89, the column "name"). -/
inductive Mnemonic where
  | CLS
  | RET
  | JP
  | CALL
  | SE_IMM
  | SNE_IMM
  | SE_REG
  | LD_IMM
  | ADD_IMM
  | LD_REG
  | OR
  | AND
  | XOR
  | ADD_REG
  | SUB
  | SHR
  | SUBN
  | SHL
  | SNE_REG
  | LD_I
  | JP_V0
  | RND
  | DRW
  | SKP
  | SKNP
  | LD_VX_DT
  | LD_VX_K
  | LD_DT_VX
  | LD_ST_VX
  | ADD_I_VX
  | LD_F_VX
  | LD_B_VX
  | ST_REGS
  | LD_REGS
deriving DecidableEq, Repr

/-- One instruction, decoded. Every value of every operand field is legal (R74, R84), and the types hold
exactly the values a field can have. -/
inductive Instr where
  /-- 00E0 `CLS` (R191). -/
  | cls
  /-- 00EE `RET` (R120). -/
  | ret
  /-- 1NNN `JP addr` (R121). -/
  | jp (nnn : Addr12)
  /-- 2NNN `CALL addr` (R122). -/
  | call (nnn : Addr12)
  /-- 3XNN `SE Vx, byte` (R123). -/
  | seImm (x : Nibble) (nn : Byte)
  /-- 4XNN `SNE Vx, byte` (R124). -/
  | sneImm (x : Nibble) (nn : Byte)
  /-- 5XY0 `SE Vx, Vy` (R125). -/
  | seReg (x : Nibble) (y : Nibble)
  /-- 6XNN `LD Vx, byte` (R142). -/
  | ldImm (x : Nibble) (nn : Byte)
  /-- 7XNN `ADD Vx, byte` (R143). -/
  | addImm (x : Nibble) (nn : Byte)
  /-- 8XY0 `LD Vx, Vy` (R144). -/
  | ldReg (x : Nibble) (y : Nibble)
  /-- 8XY1 `OR Vx, Vy` (R145). -/
  | orReg (x : Nibble) (y : Nibble)
  /-- 8XY2 `AND Vx, Vy` (R146). -/
  | andReg (x : Nibble) (y : Nibble)
  /-- 8XY3 `XOR Vx, Vy` (R147). -/
  | xorReg (x : Nibble) (y : Nibble)
  /-- 8XY4 `ADD Vx, Vy` (R148). -/
  | addReg (x : Nibble) (y : Nibble)
  /-- 8XY5 `SUB Vx, Vy` (R149). -/
  | sub (x : Nibble) (y : Nibble)
  /-- 8XY6 `SHR Vx, Vy` (R151). -/
  | shr (x : Nibble) (y : Nibble)
  /-- 8XY7 `SUBN Vx, Vy` (R152). -/
  | subn (x : Nibble) (y : Nibble)
  /-- 8XYE `SHL Vx, Vy` (R153). -/
  | shl (x : Nibble) (y : Nibble)
  /-- 9XY0 `SNE Vx, Vy` (R126). -/
  | sneReg (x : Nibble) (y : Nibble)
  /-- ANNN `LD I, addr` (R170). -/
  | ldI (nnn : Addr12)
  /-- BNNN `JP V0, addr` (R128). -/
  | jpV0 (nnn : Addr12)
  /-- CXNN `RND Vx, byte` (R154). -/
  | rnd (x : Nibble) (nn : Byte)
  /-- DXYN `DRW Vx, Vy, nibble` (R192). -/
  | drw (x : Nibble) (y : Nibble) (n : Nibble)
  /-- EX9E `SKP Vx` (R210). -/
  | skp (x : Nibble)
  /-- EXA1 `SKNP Vx` (R211). -/
  | sknp (x : Nibble)
  /-- FX07 `LD Vx, DT` (R213). -/
  | ldVxDt (x : Nibble)
  /-- FX0A `LD Vx, K` (R214). -/
  | ldVxK (x : Nibble)
  /-- FX15 `LD DT, Vx` (R215). -/
  | ldDtVx (x : Nibble)
  /-- FX18 `LD ST, Vx` (R216). -/
  | ldStVx (x : Nibble)
  /-- FX1E `ADD I, Vx` (R171). -/
  | addIVx (x : Nibble)
  /-- FX29 `LD F, Vx` (R172). -/
  | ldFVx (x : Nibble)
  /-- FX33 `LD B, Vx` (R173). -/
  | ldBVx (x : Nibble)
  /-- FX55 `LD [I], Vx` (R175). -/
  | stRegs (x : Nibble)
  /-- FX65 `LD Vx, [I]` (R176). -/
  | ldRegs (x : Nibble)
deriving DecidableEq, Repr

/-- The row of the opcode table an instruction belongs to (R89). -/
def Instr.mnemonic : Instr → Mnemonic
  | .cls => .CLS
  | .ret => .RET
  | .jp _ => .JP
  | .call _ => .CALL
  | .seImm _ _ => .SE_IMM
  | .sneImm _ _ => .SNE_IMM
  | .seReg _ _ => .SE_REG
  | .ldImm _ _ => .LD_IMM
  | .addImm _ _ => .ADD_IMM
  | .ldReg _ _ => .LD_REG
  | .orReg _ _ => .OR
  | .andReg _ _ => .AND
  | .xorReg _ _ => .XOR
  | .addReg _ _ => .ADD_REG
  | .sub _ _ => .SUB
  | .shr _ _ => .SHR
  | .subn _ _ => .SUBN
  | .shl _ _ => .SHL
  | .sneReg _ _ => .SNE_REG
  | .ldI _ => .LD_I
  | .jpV0 _ => .JP_V0
  | .rnd _ _ => .RND
  | .drw _ _ _ => .DRW
  | .skp _ => .SKP
  | .sknp _ => .SKNP
  | .ldVxDt _ => .LD_VX_DT
  | .ldVxK _ => .LD_VX_K
  | .ldDtVx _ => .LD_DT_VX
  | .ldStVx _ => .LD_ST_VX
  | .addIVx _ => .ADD_I_VX
  | .ldFVx _ => .LD_F_VX
  | .ldBVx _ => .LD_B_VX
  | .stRegs _ => .ST_REGS
  | .ldRegs _ => .LD_REGS

end Sys2Proof
end

