-- ==== Sys2Proof/WellFormed.lean ====
section
/-! DEFINITION. Well-formedness. An instruction word is legal when a row of the opcode table matches it
(spec/30_encoding.md R84, R89); a byte sequence is well-formed when it begins with a legal word. An `Instr`
carries its field widths in its types and every field value is legal (R23, R74, R85), so no term is ill-formed. -/
namespace Sys2Proof

/-- A row of the opcode table: a word `w` is the instruction exactly when `w & mask = bits` (R89). -/
structure OpcodeRow where
  name : Mnemonic
  bits : Word
  mask : Word
deriving DecidableEq, Repr

/-- Whether a word belongs to a row (R89). -/
def OpcodeRow.accepts (r : OpcodeRow) (w : Word) : Bool := w &&& r.mask == r.bits

/-- Rows of R89, families 0 to 7. -/
def opcodeRows1 : List OpcodeRow :=
  [⟨.CLS, 0x00E0, 0xFFFF⟩,
   ⟨.RET, 0x00EE, 0xFFFF⟩,
   ⟨.JP, 0x1000, 0xF000⟩,
   ⟨.CALL, 0x2000, 0xF000⟩,
   ⟨.SE_IMM, 0x3000, 0xF000⟩,
   ⟨.SNE_IMM, 0x4000, 0xF000⟩,
   ⟨.SE_REG, 0x5000, 0xF00F⟩,
   ⟨.LD_IMM, 0x6000, 0xF000⟩,
   ⟨.ADD_IMM, 0x7000, 0xF000⟩]

/-- Rows of R89, families 8 to D. -/
def opcodeRows2 : List OpcodeRow :=
  [⟨.LD_REG, 0x8000, 0xF00F⟩,
   ⟨.OR, 0x8001, 0xF00F⟩,
   ⟨.AND, 0x8002, 0xF00F⟩,
   ⟨.XOR, 0x8003, 0xF00F⟩,
   ⟨.ADD_REG, 0x8004, 0xF00F⟩,
   ⟨.SUB, 0x8005, 0xF00F⟩,
   ⟨.SHR, 0x8006, 0xF00F⟩,
   ⟨.SUBN, 0x8007, 0xF00F⟩,
   ⟨.SHL, 0x800E, 0xF00F⟩,
   ⟨.SNE_REG, 0x9000, 0xF00F⟩,
   ⟨.LD_I, 0xA000, 0xF000⟩,
   ⟨.JP_V0, 0xB000, 0xF000⟩,
   ⟨.RND, 0xC000, 0xF000⟩,
   ⟨.DRW, 0xD000, 0xF000⟩]

/-- Rows of R89, families E and F. -/
def opcodeRows3 : List OpcodeRow :=
  [⟨.SKP, 0xE09E, 0xF0FF⟩,
   ⟨.SKNP, 0xE0A1, 0xF0FF⟩,
   ⟨.LD_VX_DT, 0xF007, 0xF0FF⟩,
   ⟨.LD_VX_K, 0xF00A, 0xF0FF⟩,
   ⟨.LD_DT_VX, 0xF015, 0xF0FF⟩,
   ⟨.LD_ST_VX, 0xF018, 0xF0FF⟩,
   ⟨.ADD_I_VX, 0xF01E, 0xF0FF⟩,
   ⟨.LD_F_VX, 0xF029, 0xF0FF⟩,
   ⟨.LD_B_VX, 0xF033, 0xF0FF⟩,
   ⟨.ST_REGS, 0xF055, 0xF0FF⟩,
   ⟨.LD_REGS, 0xF065, 0xF0FF⟩]

/-- The complete opcode table (R89), 34 rows. It is the second text of the encoding beside `decodeWord`,
which follows the prose of R75 to R83. -/
def opcodeTable : List OpcodeRow := opcodeRows1 ++ opcodeRows2 ++ opcodeRows3

/-- A word is legal when some row of the table accepts it; every other word is illegal (R84, R85). -/
def legalWord (w : Word) : Bool := opcodeTable.any fun r => r.accepts w

/-- A byte sequence begins with a well-formed instruction: two bytes, big-endian, of a legal word (R51, R70). -/
def wellFormedBytes : List Byte → Bool
  | hi :: lo :: _ => legalWord (hi ++ lo)
  | _ => false

/-- Every instruction term is well-formed: register indices are in range "by construction of the 4-bit field
width" (R23), every operand value is legal (R74), no encoding is reserved (R85). -/
def Instr.wellFormed (_ : Instr) : Bool := true

end Sys2Proof
end

