-- ==== Sys2Proof/Machine/Fetch.lean ====
section
/-! DEFINITION. The instruction cycle up to the dispatch (spec/40_cycle.md R100 to R104): the execution state,
the fetch check, the fetch and the decode. -/
namespace Sys2Proof.Machine

/-- `fetch_check(pc)` (R102): the fatal error it raises, if any. -/
def fetchCheck (p : Params) (pc : Word) : Option (Fault × Word) :=
  let a := pc.toNat
  if p.pcCheck = .invariant ∧ (a % 2 ≠ 0 ∨ a < 0x200 ∨ a > 0xFFE) then some (.pcFault, pc)
  else if a > 0xFFF then some (.boundsError, BitVec.ofNat 16 a)
  else if a + 1 > 0xFFF then some (.boundsError, BitVec.ofNat 16 (a + 1))
  else none

/-- `MemRead(pc, 2)`: the big-endian word at `pc` (R51, R103). -/
def State.fetchWord (s : State) : Word :=
  wordOfBytes (s.readByte s.pc.toNat) (s.readByte (s.pc.toNat + 1))

/-- What one `step` is about to do (R100). -/
inductive Cycle where
  /-- waiting for a key or halted: nothing (R101) -/
  | suspended
  /-- a fatal error before any instruction runs (R102, R104) -/
  | raises (f : Fault) (info : Word)
  /-- run this instruction (R105) -/
  | runs (i : Instr)
deriving DecidableEq, Repr

/-- Fetch check, fetch and decode, in that order of priority (R244). -/
def State.fetchDecode (s : State) : Cycle :=
  match fetchCheck s.params s.pc with
  | some (f, info) => .raises f info
  | none =>
    match decodeWord s.fetchWord with
    | some i => .runs i
    | none => .raises .decodeError s.fetchWord

/-- The whole of R100 before `execute`. -/
def State.cycle (s : State) : Cycle :=
  match s.execState with
  | .executing => s.fetchDecode
  | .waitingForKey _ => .suspended
  | .halted _ _ => .suspended

/-- Puts a word where `step` fetches next, and makes the next step fetch: the core executing, and `pc` at the
program start when the fetch check would refuse the present one (log entry 9). -/
def State.placeFetchWord (s : State) (w : Word) : State :=
  let t := s.setExecState .executing
  let u := if fetchCheck t.params t.pc = none then t else t.setPc (BitVec.ofNat 16 Config.programStart)
  (u.writeByte u.pc.toNat (wordHi w)).writeByte (u.pc.toNat + 1) (wordLo w)

end Sys2Proof.Machine
end

