-- ==== Sys2Proof/Machine/Step.lean ====
section
/-! DEFINITION. `step` (spec/40_cycle.md R100) and the host's way to place an instruction. -/
namespace Sys2Proof.Machine

/-- One `step` (R100): nothing when suspended (R101), else a fatal error before the instruction (R102, R104) or
the instruction's effect (R105). The input `rnd` is the free value CXNN draws (log entry 2). -/
def step (s : State) : Host.Outcome State Fault Refusal :=
  match s.cycle with
  | .suspended => .next s
  | .raises f info => .next (s.raise f info)
  | .runs i => exec i s

/-- `s` with the instruction of bits `w` (bits from `nbits` up are 0) where `step` fetches next (log entry 9). -/
def State.withFetchWord (s : State) (nbits w : Nat) : State :=
  s.placeFetchWord (BitVec.ofNat 16 (w % 2 ^ nbits))

end Sys2Proof.Machine
end

