-- ==== Sys2Proof/Machine/Transactions.lean ====
section
/-! DEFINITION. The other host transactions (spec/00_scope.md section 4) and their replies, beside `step`: the
boot, the loader, the timer tick, the key input and the renderer's frame read. Each is atomic (R10); a run is any
list of transactions, or an infinite fair sequence of them (spec/70_reset_and_hazards.md R283). -/
namespace Sys2Proof.Machine

/-- Installs FONT_TABLE from byte `j` on, `n` bytes (R270, R272). -/
def State.installFontFrom (s : State) (j : Nat) : Nat → State
  | 0 => s
  | n + 1 =>
    (s.writeByte (s.params.fontBase.val + j) (resetByte s.params (s.params.fontBase.val + j))).installFontFrom (j + 1) n

/-- `power_on` (R270): the reset state, from any state. The parameters and the stream of free values are the
model's own and stay (log entries 1, 2). -/
def State.powerOn (s : State) : State :=
  { State.reset with params := s.params, rndCount := s.rndCount }

/-- `initialize` (R272): pc, I, SP and the font, and nothing else, `exec_state` included. -/
def State.initCore (s : State) : State :=
  { s with pc := BitVec.ofNat 16 Config.programStart, i := 0, sp := 0 }.installFontFrom 0 Config.fontSize

/-- The reply of `load` (R60). -/
inductive LoadReply where
  | ok
  | loadCapacity
deriving DecidableEq, Repr

/-- `load(bytes)` (R60): more than 3584 bytes change nothing, else the bytes go to 0x200 and up. -/
def State.load (s : State) (bytes : List Byte) : State × LoadReply :=
  if bytes.length > Config.romCapacity then (s, .loadCapacity)
  else (s.storeBytes Config.programStart bytes, .ok)

/-- What `step` returns to the driver (R108). -/
inductive StepReply where
  | ok
  | waiting
  | halted
  | fault (code : Fault) (info : Word)
deriving DecidableEq, Repr

/-- The return value of a `step` from the states before and after it (R101, R108): a step from `Executing` that
ends in `Halted` raised that fatal error. -/
def stepReply (before after : State) : StepReply :=
  match before.execState with
  | .halted _ _ => .halted
  | .waitingForKey _ => .waiting
  | .executing =>
    match after.execState with
    | .halted f info => .fault f info
    | .executing => .ok
    | .waitingForKey _ => .ok

/-- A timer counted down toward 0 (R220). -/
def countDown (b : Byte) : Byte := if b = 0 then 0 else b - 1

/-- `tick_timers` and its `beep_event` (R220, R224): nothing in `Halted`. -/
def State.tickTimers (s : State) : State × Bool :=
  match s.execState with
  | .halted _ _ => (s, false)
  | .executing => ((s.setDt (countDown s.dt)).setSt (countDown s.st), decide (s.st = 1))
  | .waitingForKey _ => ((s.setDt (countDown s.dt)).setSt (countDown s.st), decide (s.st = 1))

/-- `set_key(k, pressed)` (R221): nothing in `Halted`; a press resolves a key wait. -/
def State.setKey (s : State) (k : Nibble) (pressed : Bool) : State :=
  match s.execState with
  | .halted _ _ => s
  | .executing => s.setKeyLatch k pressed
  | .waitingForKey t =>
    if pressed = true then (((s.setKeyLatch k pressed).setV t (k.setWidth 8)).setExecState .executing)
    else s.setKeyLatch k pressed

/-- `consume_frame` (R195): a copy of the frame, and `dirty` cleared, in every execution state. -/
def State.consumeFrame (s : State) : State × Frame := (s.setDirty false, s.fb)

/-- The level output `sound_active` (R223). -/
def State.soundActive (s : State) : Bool := decide (s.st ≠ 0)

/-- The host transactions (spec/00_scope.md section 4). -/
inductive Txn where
  | powerOn
  | initCore
  | load (bytes : List Byte)
  | step
  | tickTimers
  | setKey (k : Nibble) (pressed : Bool)
  | consumeFrame
deriving DecidableEq, Repr

/-- What a transaction returns to its caller. -/
inductive Reply where
  | none
  | load (r : LoadReply)
  | step (r : StepReply)
  | beep (b : Bool)
  | frame (f : Frame)
deriving DecidableEq, Repr

/-- One transaction: the next state and the reply (R10). -/
def Txn.apply (t : Txn) (s : State) : Host.Outcome (State × Reply) Fault Refusal :=
  match t with
  | .powerOn => .next (s.powerOn, .none)
  | .initCore => .next (s.initCore, .none)
  | .load bytes => .next ((s.load bytes).1, .load (s.load bytes).2)
  | .step =>
    match Sys2Proof.Machine.step s with
    | .next u => .next (u, .step (stepReply s u))
    | .fault f => .fault f
    | .refused r => .refused r
  | .tickTimers => .next (s.tickTimers.1, .beep s.tickTimers.2)
  | .setKey k pressed => .next (s.setKey k pressed, .none)
  | .consumeFrame => .next (s.consumeFrame.1, .frame s.consumeFrame.2)

/-- A run: transactions one at a time in a single total order, in any interleaving (R62, R283). -/
def runTxns : List Txn → State → Host.Outcome State Fault Refusal
  | [], s => .next s
  | t :: ts, s =>
    match t.apply s with
    | .next (u, _) => runTxns ts u
    | .fault f => .fault f
    | .refused r => .refused r

/-- An infinite run: `σ n` is the state before transaction number `n` of the order `ts`, which the environment
chooses freely (R283). -/
def IsRun (ts : Nat → Txn) (σ : Nat → State) : Prop :=
  ∀ n, ∃ r, (ts n).apply (σ n) = .next (σ (n + 1), r)

/-- The one thing assumed of the order of an infinite run: `step` and `tick_timers` are each called infinitely
often (R283). -/
def Fair (ts : Nat → Txn) : Prop :=
  (∀ n, ∃ m, n ≤ m ∧ ts m = .step) ∧ (∀ n, ∃ m, n ≤ m ∧ ts m = .tickTimers)

end Sys2Proof.Machine
end

