-- ==== Sys2Proof/Safety.lean ====
section
/-! DEFINITION. What counts as a good state, and the words the statements use: the invariants every step keeps
and what makes a fault record true. -/
namespace Sys2Proof.Safety

open Sys2Proof.Machine

/-- Memory holds its canonical form (log entry 10). -/
abbrev MemCanonical (s : State) : Prop := Memory.wf s.params s.mem = true

/-- `pc` is at most 0x10FE and every stack slot at most 0x1000, so that no address computation of `pc` wraps
(spec/40_cycle.md R106). -/
abbrev AddressesBounded (s : State) : Prop :=
  s.pc.toNat ≤ 0x10FE ∧ ∀ j : Fin 16, s.stack[j].toNat ≤ 0x1000

/-- The font region holds FONT_TABLE (spec/10_state.md R32: "treated as read-only thereafter"). -/
def FontIntact (s : State) : Prop :=
  ∀ j (h : j < Config.fontSize), s.readByte (s.params.fontBase.val + j) = fontByte s.params j h

/-- The next instruction writes the block of `k` bytes from `I` (spec/43_index_memory.md R173, R175). -/
def WritesBlock (s : State) (k : Nat) : Prop :=
  ∃ x, (s.fetchDecode = .runs (.ldBVx x) ∧ k = 3) ∨ (s.fetchDecode = .runs (.stRegs x) ∧ k = x.toNat + 1)

/-- The next instruction reads the block of `k` bytes from `I` (spec/43_index_memory.md R176,
spec/44_display.md R192). -/
def ReadsBlock (s : State) (k : Nat) : Prop :=
  ∃ x y n, (s.fetchDecode = .runs (.ldRegs x) ∧ k = x.toNat + 1) ∨
    (s.fetchDecode = .runs (.drw x y n) ∧ k = n.toNat)

/-- The record of a halt is what R240 (spec/60_exceptions.md) gives for its code. A fatal error changes nothing but
`exec_state` (R242), so the halted state still holds the faulting step's `pc`, `I`, V, `SP` and memory, and the
instruction at `pc` is the one that raised. -/
def RecordJustified (s : State) : Prop :=
  match s.execState with
  | .executing => True
  | .waitingForKey _ => True
  | .halted .decodeError info =>
    fetchCheck s.params s.pc = none ∧ decodeWord s.fetchWord = none ∧ info = s.fetchWord
  | .halted .boundsError info =>
    (s.params.pcCheck = .boundsOnly ∧ 0xFFE < s.pc.toNat ∧ info.toNat = max s.pc.toNat 0x1000) ∨
    (∃ k, (WritesBlock s k ∨ ReadsBlock s k) ∧
      info.toNat = max s.i.toNat 0x1000 ∧ info.toNat < s.i.toNat + k)
  | .halted .stackUnderflow info => s.fetchDecode = .runs .ret ∧ s.sp.val = 0 ∧ info = s.pc
  | .halted .stackOverflow info =>
    (∃ nnn, s.fetchDecode = .runs (.call nnn)) ∧ s.sp.val = 16 ∧ info = s.pc
  | .halted .pcFault info =>
    s.params.pcCheck = .invariant ∧ info = s.pc ∧
      (info.toNat % 2 ≠ 0 ∨ info.toNat < 0x200 ∨ info.toNat > 0xFFE)
  | .halted .keyIndexFault info =>
    s.params.keyIndexPolicy = .fault ∧
      ∃ x, (s.fetchDecode = .runs (.skp x) ∨ s.fetchDecode = .runs (.sknp x)) ∧
        0xF < (s.getV x).toNat ∧ info = (s.getV x).setWidth 16
  | .halted .fontWriteFault info =>
    s.params.fontWritePolicy = .fault ∧
      ∃ k, WritesBlock s k ∧ s.i.toNat ≤ info.toNat ∧ info.toNat < s.i.toNat + k ∧
        inFontRegion s.params info.toNat = true ∧
        ∀ a, s.i.toNat ≤ a → a < info.toNat → inFontRegion s.params a = false

/-- A fatal error ended the run. -/
def isHalted (s : State) : Bool :=
  match s.execState with
  | .halted _ _ => true
  | .executing => false
  | .waitingForKey _ => false

end Sys2Proof.Safety
end

