-- ==== Sys2Proof/Certificates/Slice0/Obligations.lean ====
section
/-! DEFINITION. The statements for the provers, from the numbered rules of spec/. A docstring names the rules a
statement follows; where it rests on a decision of the spec's own (D<n> of spec/92_eei_decisions.md) or on a
choice of the model (log entry <n>), the docstring says so. -/

open Sys2Proof Sys2Proof.Machine Sys2Proof.Safety

/-! ### Encoding and decoding -/

/-- Decoding an instruction's word gives the instruction back, every operand at every value (R71, R72, R89). -/
def Obligations.DecodeOfEncodeIsTheInstruction : Prop :=
  ∀ i : Instr, decodeWord (encode i) = some i

/-- Encoding a decoded word gives the word back: no two words are one instruction, so no bit of a legal word is
dropped, the ignored `y` of 8XY6 and 8XYE included (R75, R89). -/
def Obligations.EncodeOfDecodeIsTheWord : Prop :=
  ∀ (w : Word) (i : Instr), decodeWord w = some i → encode i = w

/-- The decoder of R75 to R83 is the table of R89: a word decodes to an instruction of a row exactly when
`w & mask = match` for that row. -/
def Obligations.DecoderAgreesWithOpcodeTable : Prop :=
  ∀ (w : Word), ∀ r ∈ opcodeTable,
    w &&& r.mask = r.bits ↔ ∃ i, decodeWord w = some i ∧ i.mnemonic = r.name

/-- The illegal words are exactly those R84 lists (the unlisted low nibbles of families 5, 8, 9 by spec decision
D26). -/
def Obligations.IllegalWordsAreExactlyTheListed : Prop :=
  ∀ w : Word,
    decodeWord w = none ↔
      (w.toNat / 4096 = 0x0 ∧ w ≠ 0x00E0 ∧ w ≠ 0x00EE) ∨
      ((w.toNat / 4096 = 0x5 ∨ w.toNat / 4096 = 0x9) ∧ w.toNat % 16 ≠ 0) ∨
      (w.toNat / 4096 = 0x8 ∧ w.toNat % 16 ∈ [0x8, 0x9, 0xA, 0xB, 0xC, 0xD, 0xF]) ∨
      (w.toNat / 4096 = 0xE ∧ w.toNat % 256 ∉ [0x9E, 0xA1]) ∨
      (w.toNat / 4096 = 0xF ∧ w.toNat % 256 ∉ [0x07, 0x0A, 0x15, 0x18, 0x1E, 0x29, 0x33, 0x55, 0x65])

/-- Words written out in spec/95_test_vectors.md, one or more of each of the sixteen families (high nibbles), decode
to the instructions they stand for (8345 is a word of section 3, the others of sections 1 and 2). -/
def Obligations.WordsOfTheSpecDecode : Prop :=
  decodeWord 0x1204 = some (.jp 0x204) ∧ decodeWord 0x3300 = some (.seImm 3 0x00) ∧
  decodeWord 0x4005 = some (.sneImm 0 0x05) ∧ decodeWord 0x6A2B = some (.ldImm 0xA 0x2B) ∧
  decodeWord 0x70FF = some (.addImm 0 0xFF) ∧ decodeWord 0x9120 = some (.sneReg 1 2) ∧
  decodeWord 0xA300 = some (.ldI 0x300) ∧
  decodeWord 0x00EE = some .ret ∧ decodeWord 0x2208 = some (.call 0x208) ∧
  decodeWord 0x5120 = some (.seReg 1 2) ∧ decodeWord 0x8345 = some (.sub 3 4) ∧
  decodeWord 0xC50F = some (.rnd 5 0x0F) ∧ decodeWord 0xBFFF = some (.jpV0 0xFFF) ∧
  decodeWord 0xF21E = some (.addIVx 2) ∧ decodeWord 0xFF65 = some (.ldRegs 15) ∧
  decodeWord 0xD012 = some (.drw 0 1 2) ∧ decodeWord 0xE2A1 = some (.sknp 2) ∧
  decodeWord 0xF30A = some (.ldVxK 3) ∧ decodeWord 0x0123 = none

/-! ### The instruction cycle -/

/-- The fetched word is big-endian: the byte at `pc` is bits [15:8] and the byte at `pc + 1` bits [7:0], read
from the current memory (R103). -/
def Obligations.FetchIsBigEndian : Prop :=
  ∀ s : State, s.fetchWord.toNat =
    256 * (s.readByte s.pc.toNat).toNat + (s.readByte (s.pc.toNat + 1)).toNat

/-- A step runs the decoded instruction: in `Executing`, with `pc` past the fetch check of R102 and the word at
`pc` decoding to `i`, `step` is `exec i`, and nothing is done around it (R100, R104, R105). -/
def Obligations.StepRunsTheDecodedInstruction : Prop :=
  ∀ (s : State) (i : Instr), s.execState = .executing → s.pc.toNat ≤ 0xFFE →
    (s.params.pcCheck = .invariant → s.pc.toNat % 2 = 0 ∧ 0x200 ≤ s.pc.toNat) →
    decodeWord s.fetchWord = some i → step s = exec i s

/-- `step` changes nothing while waiting for a key or halted, and answers WAITING or HALTED (R101, R108; `Halted`
and the replies are spec decision D11). -/
def Obligations.StepChangesNothingWhenSuspended : Prop :=
  ∀ s : State,
    (s.execState ≠ .executing → step s = .next s) ∧
    (∀ x, s.execState = .waitingForKey x → Txn.step.apply s = .next (s, .step .waiting)) ∧
    (∀ f info, s.execState = .halted f info → Txn.step.apply s = .next (s, .step .halted))

/-- What `step` raises before any instruction runs: the fetch check under each `PC_CHECK` (R102, spec decision
D2), then DECODE_ERROR with the word as its record (R84, R104); only `exec_state` changes (R242, D4, D11). -/
def Obligations.StepRaisesBeforeExecuting : Prop :=
  ∀ s : State, s.execState = .executing →
    (s.params.pcCheck = .invariant →
      (s.pc.toNat % 2 ≠ 0 ∨ s.pc.toNat < 0x200 ∨ s.pc.toNat > 0xFFE) →
      step s = .next { s with execState := .halted .pcFault s.pc }) ∧
    (s.params.pcCheck = .boundsOnly → s.pc.toNat > 0xFFF →
      step s = .next { s with execState := .halted .boundsError s.pc }) ∧
    (s.params.pcCheck = .boundsOnly → s.pc.toNat = 0xFFF →
      step s = .next { s with execState := .halted .boundsError 0x1000 }) ∧
    (s.pc.toNat ≤ 0xFFE → (s.params.pcCheck = .invariant → s.pc.toNat % 2 = 0 ∧ 0x200 ≤ s.pc.toNat) →
      decodeWord s.fetchWord = none →
      step s = .next { s with execState := .halted .decodeError s.fetchWord })

/-- No instruction and no step ends in a host fault or a refusal: a fatal error is a next state (log entry 3), and
ordinary data never ends a run. -/
def Obligations.EveryStepAnswersANextState : Prop :=
  (∀ s : State, ∃ t, step s = .next t) ∧ ∀ (i : Instr) (s : State), ∃ t, exec i s = .next t

/-- Faults are precise: a step from `Executing` that ends in `Halted(f, info)` changed nothing but `exec_state`, and
answers FAULT(f, info) (R108, R242; spec decisions D4, D11). -/
def Obligations.FaultsArePrecise : Prop :=
  ∀ (s t : State) (f : Fault) (info : Word), s.execState = .executing → step s = .next t →
    t.execState = .halted f info →
      t = { s with execState := .halted f info } ∧ Txn.step.apply s = .next (t, .step (.fault f info))

/-- The transitions of `exec_state` that a step makes (R222; spec decisions D11, D17): none when suspended; from
`Executing` to `WaitingForKey(x)` exactly when FX0A with index x ran, with `pc` past it; else to `Executing` or
`Halted`. A step from `Executing` that raised nothing ran an instruction and answers OK (R108). -/
def Obligations.ExecStateTransitionsOfAStep : Prop :=
  ∀ s t : State, step s = .next t →
    (s.execState ≠ .executing → t.execState = s.execState) ∧
    (s.execState = .executing → ∀ x : Nibble,
      t.execState = .waitingForKey x ↔ s.cycle = .runs (.ldVxK x)) ∧
    (s.execState = .executing → ∀ x : Nibble, t.execState = .waitingForKey x → t.pc = s.pc + 2) ∧
    (s.execState = .executing → isHalted t = false →
      (∃ i, s.cycle = .runs i) ∧ Txn.step.apply s = .next (t, .step .ok))

/-- Which fatal errors an instruction can raise once fetched and decoded (R241). -/
def Obligations.InstructionsRaiseOnlyTheirFaults : Prop :=
  ∀ (i : Instr) (s t : State) (f : Fault) (info : Word), s.execState = .executing → exec i s = .next t →
    t.execState = .halted f info →
      (f = .stackUnderflow ∧ i.mnemonic = .RET) ∨
      (f = .stackOverflow ∧ i.mnemonic = .CALL) ∨
      (f = .boundsError ∧ i.mnemonic ∈ [Mnemonic.DRW, .LD_B_VX, .ST_REGS, .LD_REGS]) ∨
      (f = .fontWriteFault ∧ i.mnemonic ∈ [Mnemonic.LD_B_VX, .ST_REGS]) ∨
      (f = .keyIndexFault ∧ i.mnemonic ∈ [Mnemonic.SKP, .SKNP])

/-! ### Invariants -/

/-- The invariants hold at reset: memory in its canonical form (the form is the model's own, log entry 10), `pc` and
the stack slots bounded (R106, R271), the font region holding FONT_TABLE (R32, R271; at the default parameters, log
entry 1) and no fault record to justify (R271). -/
def Obligations.ResetMeetsTheInvariants : Prop :=
  MemCanonical State.reset ∧ AddressesBounded State.reset ∧ FontIntact State.reset ∧
    RecordJustified State.reset

/-- Every step keeps the canonical form of memory, with every listed address in 0x000 to 0xFFF (R52: no access
past 0xFFF; the form is the model's own, log entry 10). -/
def Obligations.StepKeepsMemoryCanonical : Prop :=
  ∀ s t : State, MemCanonical s → step s = .next t → MemCanonical t

/-- Every step keeps `pc` at most 0x10FE and the stack slots at most 0x1000, so no write to `pc` wraps (R106, a
derived rule of the spec). -/
def Obligations.StepKeepsAddressesBounded : Prop :=
  ∀ s t : State, AddressesBounded s → step s = .next t → AddressesBounded t

/-- Under `FONT_WRITE_POLICY = fault` no step changes the font region: it still holds FONT_TABLE (R32 "treated as
read-only thereafter"; R54, spec decision D7). -/
def Obligations.StepKeepsTheFont : Prop :=
  ∀ s t : State, s.params.fontWritePolicy = .fault → FontIntact s → step s = .next t → FontIntact t

/-- Every step keeps fault records true: a halted state's record is what R240 gives for its code: the illegal word,
the lowest offending address, `pc`, or zext_16(V[x]), of the fetch or of the instruction at `pc` (spec decisions D2, D6,
D7, D12). -/
def Obligations.StepKeepsFaultRecordsTrue : Prop :=
  ∀ s t : State, RecordJustified s → step s = .next t → RecordJustified t

/-- Every run of host transactions, in any interleaving (R283), keeps memory canonical (the model's own form,
log entry 10), addresses bounded and, under `FONT_WRITE_POLICY = fault`, the font intact. -/
def Obligations.EveryRunKeepsTheInvariants : Prop :=
  ∀ (ts : List Txn) (s t : State), runTxns ts s = .next t →
    (MemCanonical s → MemCanonical t) ∧ (AddressesBounded s → AddressesBounded t) ∧
      (s.params.fontWritePolicy = .fault → FontIntact s → FontIntact t)

/-! ### Whole-machine rules -/

/-- Who writes what: every piece of the spec's state is written only by the instructions the spec names for it. A
general register is written by an instruction that names it as destination, by FX65 and, VF, by a flag output (R22,
R40, R176); `pc` is other than `pc + 2` afterwards only for the instructions of R107 and where a fatal error was raised
(R105, R242); `exec_state` changes only by FX0A and by a fatal error (R37, R241); no instruction writes the key latch
(R35); `I`, the stack, the timers, the framebuffer, memory and `dirty` follow R26, R27, R28, R29, R30, R34, R36 and R56.
The parameters and the random count are the model's own fields (log entries 1, 2). -/
def Obligations.OnlyTheNamedInstructionsWrite : Prop :=
  ∀ (i : Instr) (s t : State), exec i s = .next t →
    (∀ z, t.getV z ≠ s.getV z →
      (∃ nn, i = .ldImm z nn ∨ i = .addImm z nn ∨ i = .rnd z nn) ∨
      (∃ y, i = .ldReg z y ∨ i = .orReg z y ∨ i = .andReg z y ∨ i = .xorReg z y ∨ i = .addReg z y ∨
        i = .sub z y ∨ i = .shr z y ∨ i = .subn z y ∨ i = .shl z y) ∨
      i = .ldVxDt z ∨ (∃ x, i = .ldRegs x ∧ z.toNat ≤ x.toNat) ∨
      (z = 0xF#4 ∧ i.mnemonic ∈ [Mnemonic.ADD_REG, .SUB, .SHR, .SUBN, .SHL, .DRW])) ∧
    (t.pc ≠ s.pc + 2 →
      i.mnemonic ∈ [Mnemonic.RET, .JP, .CALL, .SE_IMM, .SNE_IMM, .SE_REG, .SNE_REG, .JP_V0, .SKP, .SKNP] ∨
      ∃ f info, t = { s with execState := .halted f info }) ∧
    (t.execState ≠ s.execState →
      (∃ x, i = .ldVxK x ∧ t.execState = .waitingForKey x) ∨
      (i.mnemonic ∈ [Mnemonic.RET, .CALL, .DRW, .LD_B_VX, .ST_REGS, .LD_REGS, .SKP, .SKNP] ∧
        ∃ f info, t = { s with execState := .halted f info })) ∧
    (t.i ≠ s.i → i.mnemonic ∈ [Mnemonic.LD_I, .ADD_I_VX, .LD_F_VX]) ∧
    (t.sp ≠ s.sp → i.mnemonic ∈ [Mnemonic.RET, .CALL]) ∧
    (t.stack ≠ s.stack → i.mnemonic = .CALL) ∧
    (t.dt ≠ s.dt → i.mnemonic = .LD_DT_VX) ∧
    (t.st ≠ s.st → i.mnemonic = .LD_ST_VX) ∧
    (t.fb ≠ s.fb → i.mnemonic ∈ [Mnemonic.CLS, .DRW]) ∧
    (t.mem ≠ s.mem → i.mnemonic ∈ [Mnemonic.LD_B_VX, .ST_REGS]) ∧
    (t.dirty ≠ s.dirty → t.dirty = true ∧ i.mnemonic ∈ [Mnemonic.CLS, .DRW]) ∧
    (t.rndCount ≠ s.rndCount → i.mnemonic = .RND) ∧
    t.key = s.key ∧ t.params = s.params

/-- VF changes only by an instruction that has a flag output (8XY4 to 8XY7, 8XYE, DXYN), by one whose destination
is VF, and by FX65 with x = 15 (R22, R40, R176). -/
def Obligations.OnlyFlagWritersChangeVF : Prop :=
  ∀ (i : Instr) (s t : State), exec i s = .next t → t.getV 0xF#4 ≠ s.getV 0xF#4 →
    i.mnemonic ∈ [Mnemonic.ADD_REG, .SUB, .SHR, .SUBN, .SHL, .DRW] ∨
    (∃ nn, i = .ldImm 0xF#4 nn ∨ i = .addImm 0xF#4 nn ∨ i = .rnd 0xF#4 nn) ∨
    (∃ y, i = .ldReg 0xF#4 y ∨ i = .orReg 0xF#4 y ∨ i = .andReg 0xF#4 y ∨ i = .xorReg 0xF#4 y) ∨
    i = .ldVxDt 0xF#4 ∨ i = .ldRegs 0xF#4

/-- No instruction reads `ST` or `dirty` (R30, R36): two states that differ only in them step to states that
differ only in them. -/
def Obligations.SoundTimerAndDirtyAreNeverRead : Prop :=
  ∀ (s t : State) (b : Byte) (d : Bool), step s = .next t →
    ∃ u, step { s with st := b, dirty := d } = .next u ∧ u = { t with st := u.st, dirty := u.dirty }

/-! ### Control flow -/

/-- 00EE with an entry on the stack pops it into `pc` and keeps the slot; 2NNN with room pushes `npc = pc + 2`
and jumps; nothing else changes (R27, R28, R120, R122; spec decision D20). -/
def Obligations.CallPushesAndReturnPops : Prop :=
  (∀ (s : State) (_ : 0 < s.sp.val),
    exec .ret s = .next { s with sp := ⟨s.sp.val - 1, by omega⟩, pc := s.stack[s.sp.val - 1] }) ∧
  (∀ (nnn : Addr12) (s : State) (_ : s.sp.val < 16),
    exec (.call nnn) s = .next { s with
      stack := s.stack.set s.sp.val (s.pc + 2), sp := ⟨s.sp.val + 1, by omega⟩, pc := nnn.setWidth 16 })

/-- 00EE on an empty stack and 2NNN on a full one raise their stack error with `pc` as the record and change
nothing but `exec_state` (R120, R122, R242; spec decisions D4, D12). -/
def Obligations.StackErrorsAtTheLimits : Prop :=
  (∀ s : State, s.sp.val = 0 →
    exec .ret s = .next { s with execState := .halted .stackUnderflow s.pc }) ∧
  (∀ (nnn : Addr12) (s : State), s.sp.val = 16 →
    exec (.call nnn) s = .next { s with execState := .halted .stackOverflow s.pc })

/-- A return after a call resumes at the word after the call, with the stack pointer as before it, whatever ran
in between left the stack as the call did (R120: "There is no further `+ 2`"). -/
def Obligations.ReturnResumesAfterTheCall : Prop :=
  ∀ (nnn : Addr12) (s t u : State), s.sp.val < 16 → exec (.call nnn) s = .next t →
    u.stack = t.stack → u.sp = t.sp →
    ∃ r, exec .ret u = .next r ∧ r.pc = s.pc + 2 ∧ r.sp = s.sp ∧ r = { u with sp := r.sp, pc := r.pc }

/-- 1NNN, the word 0x1000 + nnn, sets `pc` to the zero-extended `nnn` and nothing else (R121). -/
def Obligations.JumpSetsPc : Prop :=
  ∀ (nnn : Addr12) (s : State), (encode (.jp nnn)).toNat = 0x1000 + nnn.toNat ∧ ∃ t, exec (.jp nnn) s = .next t ∧
    t.pc.toNat = nnn.toNat ∧ t = { s with pc := t.pc }

/-- BNNN sets `pc` to V0 + nnn, a sum that is not reduced modulo 4096 (R128; spec decision D3), and nothing
else; no register but V0 is read. -/
def Obligations.JumpWithOffsetAddsV0 : Prop :=
  ∀ (nnn : Addr12) (s : State), ∃ t, exec (.jpV0 nnn) s = .next t ∧
    t.pc.toNat = (s.getV 0#4).toNat + nnn.toNat ∧ t = { s with pc := t.pc }

/-- The four register and immediate skips go to `npc + 2` exactly when their condition holds, else to `npc`, and
change nothing else; their words, and the words beside 5XY0 and 9XY0 that are illegal (R123, R124, R125, R126). -/
def Obligations.SkipsTestTheirCondition : Prop :=
  ∀ (x y : Nibble) (nn : Byte) (s : State),
    exec (.seImm x nn) s = .next { s with pc := if s.getV x = nn then s.pc + 4 else s.pc + 2 } ∧
    exec (.sneImm x nn) s = .next { s with pc := if s.getV x ≠ nn then s.pc + 4 else s.pc + 2 } ∧
    exec (.seReg x y) s = .next { s with pc := if s.getV x = s.getV y then s.pc + 4 else s.pc + 2 } ∧
    exec (.sneReg x y) s = .next { s with pc := if s.getV x ≠ s.getV y then s.pc + 4 else s.pc + 2 } ∧
    (encode (.seImm x nn)).toNat = 0x3000 + 256 * x.toNat + nn.toNat ∧
    (encode (.sneImm x nn)).toNat = 0x4000 + 256 * x.toNat + nn.toNat ∧
    (encode (.seReg x y)).toNat = 0x5000 + 256 * x.toNat + 16 * y.toNat ∧
    (encode (.sneReg x y)).toNat = 0x9000 + 256 * x.toNat + 16 * y.toNat ∧
    ∀ k : Nibble, k ≠ 0 →
      decodeWord (0x5#4 ++ x ++ y ++ k) = none ∧ decodeWord (0x9#4 ++ x ++ y ++ k) = none

/-! ### ALU -/

/-- 6XNN, 7XNN and 8XY0 write VX (7XNN wraps modulo 256), set no flag, and change no other register; with x = 15
VF is the destination; and their words (R142, R143, R144). -/
def Obligations.LoadsAndImmediateAddSetNoFlag : Prop :=
  ∀ (x y : Nibble) (nn : Byte) (s : State),
    (encode (.ldImm x nn)).toNat = 0x6000 + 256 * x.toNat + nn.toNat ∧
    (encode (.addImm x nn)).toNat = 0x7000 + 256 * x.toNat + nn.toNat ∧
    (encode (.ldReg x y)).toNat = 0x8000 + 256 * x.toNat + 16 * y.toNat ∧
    (∃ t, exec (.ldImm x nn) s = .next t ∧ t.getV x = nn ∧
      (∀ z, z ≠ x → t.getV z = s.getV z) ∧ t = { s with v := t.v, pc := s.pc + 2 }) ∧
    (∃ t, exec (.addImm x nn) s = .next t ∧ (t.getV x).toNat = ((s.getV x).toNat + nn.toNat) % 256 ∧
      (∀ z, z ≠ x → t.getV z = s.getV z) ∧ t = { s with v := t.v, pc := s.pc + 2 }) ∧
    (∃ t, exec (.ldReg x y) s = .next t ∧ t.getV x = s.getV y ∧
      (∀ z, z ≠ x → t.getV z = s.getV z) ∧ t = { s with v := t.v, pc := s.pc + 2 })

/-- 8XY1, 8XY2 and 8XY3 combine VX and VY bit by bit into VX and leave every other register, VF among them,
unless x = 15; and their words (R145, R146, R147). -/
def Obligations.BitwiseOpsLeaveVF : Prop :=
  ∀ (x y : Nibble) (s : State),
    (encode (.orReg x y)).toNat = 0x8001 + 256 * x.toNat + 16 * y.toNat ∧
    (encode (.andReg x y)).toNat = 0x8002 + 256 * x.toNat + 16 * y.toNat ∧
    (encode (.xorReg x y)).toNat = 0x8003 + 256 * x.toNat + 16 * y.toNat ∧
    (∃ t, exec (.orReg x y) s = .next t ∧
      (∀ k, k < 8 → (t.getV x).getLsbD k = ((s.getV x).getLsbD k || (s.getV y).getLsbD k)) ∧
      (∀ z, z ≠ x → t.getV z = s.getV z) ∧ t = { s with v := t.v, pc := s.pc + 2 }) ∧
    (∃ t, exec (.andReg x y) s = .next t ∧
      (∀ k, k < 8 → (t.getV x).getLsbD k = ((s.getV x).getLsbD k && (s.getV y).getLsbD k)) ∧
      (∀ z, z ≠ x → t.getV z = s.getV z) ∧ t = { s with v := t.v, pc := s.pc + 2 }) ∧
    (∃ t, exec (.xorReg x y) s = .next t ∧
      (∀ k, k < 8 → (t.getV x).getLsbD k = ((s.getV x).getLsbD k ^^ (s.getV y).getLsbD k)) ∧
      (∀ z, z ≠ x → t.getV z = s.getV z) ∧ t = { s with v := t.v, pc := s.pc + 2 })

/-- 8XY4 writes the sum modulo 256 to VX and the carry to VF, the flag last, so that VF ends as the carry when
x = 15 (R141, R148; spec decision D19); operands are read first, so y = 15 adds the old VF. -/
def Obligations.AddSetsCarry : Prop :=
  ∀ (x y : Nibble) (s : State), ∃ t, exec (.addReg x y) s = .next t ∧
    (x ≠ 0xF#4 → (t.getV x).toNat = ((s.getV x).toNat + (s.getV y).toNat) % 256) ∧
    t.getV 0xF#4 = (if (s.getV x).toNat + (s.getV y).toNat > 255 then 1 else 0) ∧
    (∀ z, z ≠ x → z ≠ 0xF#4 → t.getV z = s.getV z) ∧ t = { s with v := t.v, pc := s.pc + 2 }

/-- 8XY5 writes VX − VY and 8XY7 VY − VX, modulo 256, to VX, and to VF 1 exactly when there is no borrow (R149,
R150, R152), the flag last (R141, spec decision D19). -/
def Obligations.SubtractionsSetNotBorrow : Prop :=
  ∀ (x y : Nibble) (s : State),
    (∃ t, exec (.sub x y) s = .next t ∧
      (x ≠ 0xF#4 → (t.getV x).toNat = ((s.getV x).toNat + 256 - (s.getV y).toNat) % 256) ∧
      t.getV 0xF#4 = (if (s.getV y).toNat > (s.getV x).toNat then 0 else 1) ∧
      (∀ z, z ≠ x → z ≠ 0xF#4 → t.getV z = s.getV z) ∧ t = { s with v := t.v, pc := s.pc + 2 }) ∧
    (∃ t, exec (.subn x y) s = .next t ∧
      (x ≠ 0xF#4 → (t.getV x).toNat = ((s.getV y).toNat + 256 - (s.getV x).toNat) % 256) ∧
      t.getV 0xF#4 = (if (s.getV x).toNat > (s.getV y).toNat then 0 else 1) ∧
      (∀ z, z ≠ x → z ≠ 0xF#4 → t.getV z = s.getV z) ∧ t = { s with v := t.v, pc := s.pc + 2 })

/-- 8XY6 and 8XYE shift VX by one and put the bit shifted out into VF, the flag last (R151, R153; spec decision
D19); VY is not read. -/
def Obligations.ShiftsKeepTheBitShiftedOut : Prop :=
  ∀ (x y : Nibble) (s : State),
    (∃ t, exec (.shr x y) s = .next t ∧
      (x ≠ 0xF#4 → (t.getV x).toNat = (s.getV x).toNat / 2) ∧
      (t.getV 0xF#4).toNat = (s.getV x).toNat % 2 ∧
      (∀ z, z ≠ x → z ≠ 0xF#4 → t.getV z = s.getV z) ∧ t = { s with v := t.v, pc := s.pc + 2 }) ∧
    (∃ t, exec (.shl x y) s = .next t ∧
      (x ≠ 0xF#4 → (t.getV x).toNat = (s.getV x).toNat * 2 % 256) ∧
      (t.getV 0xF#4).toNat = (s.getV x).toNat / 128 ∧
      (∀ z, z ≠ x → z ≠ 0xF#4 → t.getV z = s.getV z) ∧ t = { s with v := t.v, pc := s.pc + 2 })

/-- CXNN writes a random byte masked by `nn` to VX (R109, R154; spec decision D10). The byte is the free value
`Config.rndByte` at the state's count (log entry 2), of which nothing is known: the statement holds for whatever
it is. -/
def Obligations.RandomIsMasked : Prop :=
  ∀ (x : Nibble) (nn : Byte) (s : State), ∃ t, exec (.rnd x nn) s = .next t ∧
    t.getV x = Config.rndByte s.rndCount &&& nn ∧ (∀ z, z ≠ x → t.getV z = s.getV z) ∧
    t.rndCount = s.rndCount + 1 ∧ t = { s with v := t.v, pc := s.pc + 2, rndCount := t.rndCount }

/-! ### The index register and memory -/

/-- ANNN, the word 0xA000 + nnn, writes the zero-extended `nnn` to `I` and nothing else (R170). -/
def Obligations.LoadIndexImmediate : Prop :=
  ∀ (nnn : Addr12) (s : State), (encode (.ldI nnn)).toNat = 0xA000 + nnn.toNat ∧ ∃ t, exec (.ldI nnn) s = .next t ∧
    t.i.toNat = nnn.toNat ∧ t = { s with i := t.i, pc := s.pc + 2 }

/-- FX1E adds VX to `I` modulo 65536, with no flag and no fault (R171; the wrap is spec decision D27, log entry
7). -/
def Obligations.AddToIndexSetsNoFlag : Prop :=
  ∀ (x : Nibble) (s : State), ∃ t, exec (.addIVx x) s = .next t ∧
    t.i.toNat = (s.i.toNat + (s.getV x).toNat) % 65536 ∧ t = { s with i := t.i, pc := s.pc + 2 }

/-- FX29 points `I` at the glyph of VX's low nibble, FONT_BASE + 5 * (VX & 0xF), and while the font is intact the
five bytes there are that glyph's rows (R32, R33, R172; spec decisions D8, D9). -/
def Obligations.FontAddressPointsAtTheGlyph : Prop :=
  ∀ (x : Nibble) (s : State), ∃ t, exec (.ldFVx x) s = .next t ∧
    t.i.toNat = s.params.fontBase.val + 5 * ((s.getV x).toNat % 16) ∧
    t = { s with i := t.i, pc := s.pc + 2 } ∧
    (FontIntact s → ∀ r : Fin 5, t.readByte (t.i.toNat + r.val) =
      (fontGlyph s.params ⟨(s.getV x).toNat % 16, Nat.mod_lt _ (by decide)⟩)[r])

/-- FX33 stores the three decimal digits of VX at I, I+1, I+2 when all three may be written; every other byte and
`I` are unchanged (R173; spec decisions D3, D7, D18). -/
def Obligations.DecimalDigitsAreStored : Prop :=
  ∀ (x : Nibble) (s : State),
    (∀ j, j < 3 → s.i.toNat + j ≤ 0xFFF ∧
      (s.params.fontWritePolicy = .fault → inFontRegion s.params (s.i.toNat + j) = false)) →
    ∃ t, exec (.ldBVx x) s = .next t ∧
      (t.readByte s.i.toNat).toNat = (s.getV x).toNat / 100 ∧
      (t.readByte (s.i.toNat + 1)).toNat = (s.getV x).toNat / 10 % 10 ∧
      (t.readByte (s.i.toNat + 2)).toNat = (s.getV x).toNat % 10 ∧
      (∀ a, a < s.i.toNat ∨ s.i.toNat + 3 ≤ a → t.readByte a = s.readByte a) ∧
      t = { s with mem := t.mem, pc := s.pc + 2 }

/-- FX55 stores V0 to VX at I, I+1, ... when every byte may be written; every other byte and `I` are unchanged
(R175; spec decisions D7, D18). -/
def Obligations.RegistersAreStored : Prop :=
  ∀ (x : Nibble) (s : State),
    (∀ j, j ≤ x.toNat → s.i.toNat + j ≤ 0xFFF ∧
      (s.params.fontWritePolicy = .fault → inFontRegion s.params (s.i.toNat + j) = false)) →
    ∃ t, exec (.stRegs x) s = .next t ∧
      (∀ j : Nibble, j.toNat ≤ x.toNat → t.readByte (s.i.toNat + j.toNat) = s.getV j) ∧
      (∀ a, a < s.i.toNat ∨ s.i.toNat + x.toNat < a → t.readByte a = s.readByte a) ∧
      t = { s with mem := t.mem, pc := s.pc + 2 }

/-- FX33 and FX55 raise at the lowest address of their block that may not be written: BOUNDS_ERROR past 0xFFF,
FONT_WRITE_FAULT in the font region under `FONT_WRITE_POLICY = fault`; nothing is written (R52, R54, R174, R244;
spec decisions D4, D7). -/
def Obligations.BlockWritesRaiseAtTheLowestAddress : Prop :=
  ∀ (x : Nibble) (s : State) (k : Nat) (i : Instr),
    (i = .ldBVx x ∧ k = 3) ∨ (i = .stRegs x ∧ k = x.toNat + 1) →
    ∀ j, j < k →
      (∀ l, l < j → s.i.toNat + l ≤ 0xFFF ∧
        (s.params.fontWritePolicy = .fault → inFontRegion s.params (s.i.toNat + l) = false)) →
      (s.i.toNat + j > 0xFFF → exec i s =
        .next { s with execState := .halted .boundsError (BitVec.ofNat 16 (s.i.toNat + j)) }) ∧
      (s.i.toNat + j ≤ 0xFFF → s.params.fontWritePolicy = .fault →
        inFontRegion s.params (s.i.toNat + j) = true → exec i s =
        .next { s with execState := .halted .fontWriteFault (BitVec.ofNat 16 (s.i.toNat + j)) })

/-- FX65 loads V0 to VX from I, I+1, ... when the block lies in memory; the other registers and `I` are unchanged
(R176; spec decision D18). -/
def Obligations.RegistersAreLoaded : Prop :=
  ∀ (x : Nibble) (s : State), s.i.toNat + x.toNat ≤ 0xFFF →
    ∃ t, exec (.ldRegs x) s = .next t ∧
      (∀ j : Nibble, t.getV j =
        if j.toNat ≤ x.toNat then s.readByte (s.i.toNat + j.toNat) else s.getV j) ∧
      t = { s with v := t.v, pc := s.pc + 2 }

/-- FX65 and DXYN raise BOUNDS_ERROR with the lowest offending address, `max(I, 0x1000)`, when a byte of their
block lies past 0xFFF, sprite rows that clipping hides included, and change nothing else (R52, R53, R192, R240;
spec decisions D3, D4, D5). -/
def Obligations.BlockReadsRaiseAtTheLowestAddress : Prop :=
  ∀ (x y n : Nibble) (s : State),
    (s.i.toNat + x.toNat > 0xFFF → exec (.ldRegs x) s =
      .next { s with execState := .halted .boundsError (BitVec.ofNat 16 (max s.i.toNat 0x1000)) }) ∧
    (0 < n.toNat → s.i.toNat + n.toNat > 0x1000 → exec (.drw x y n) s =
      .next { s with execState := .halted .boundsError (BitVec.ofNat 16 (max s.i.toNat 0x1000)) })

/-- FX55 and then FX65 with the same `I`, the same `x` and the memory the store left restore V0 to VX, whatever the
registers hold in between (R176, the source's "Round-trip" property). -/
def Obligations.StoreThenLoadRestoresRegisters : Prop :=
  ∀ (x : Nibble) (s t u : State), exec (.stRegs x) s = .next t →
    t.execState = .executing → u.params = t.params → u.mem = t.mem → u.i = t.i →
    ∃ r, exec (.ldRegs x) u = .next r ∧
      ∀ j : Nibble, r.getV j = if j.toNat ≤ x.toNat then s.getV j else u.getV j

/-- Self-modifying code: the word that FX55 stores at `I` is the word a later fetch from there reads (R64, a
derived rule of the spec; decision D25). -/
def Obligations.FetchSeesEarlierStores : Prop :=
  ∀ (x : Nibble) (s t u : State), 1 ≤ x.toNat →
    exec (.stRegs x) s = .next t → t.execState = .executing →
    u.params = t.params → u.mem = t.mem → u.pc = s.i →
    u.fetchWord = wordOfBytes (s.getV 0#4) (s.getV 1#4)

/-! ### The display -/

/-- 00E0 clears every pixel and sets `dirty`, and nothing else (R191). -/
def Obligations.ClearScreenSetsDirty : Prop :=
  encode .cls = 0x00E0 ∧ ∀ s : State, ∃ t, exec .cls s = .next t ∧ (∀ X Y, X < 64 → Y < 32 → t.fb.pixel X Y = false) ∧
    t = { s with fb := t.fb, dirty := true, pc := s.pc + 2 }

/-- DXYN when its `n` bytes lie in memory: the start position wraps; an on-screen pixel (X, Y) toggles exactly
when it is sprite row r, column c and that bit is set, bit 7 leftmost; VF is 1 exactly when a pixel went from 1 to
0, else 0; `dirty` is set; nothing else changes (R192, R194; spec decisions D5, D16: the bit order is the model's
PRESUMED convention, log entry 6). -/
def Obligations.DrawXorsTheSprite : Prop :=
  ∀ (x y n : Nibble) (s : State), n.toNat = 0 ∨ s.i.toNat + n.toNat ≤ 0x1000 →
    ∃ t, exec (.drw x y n) s = .next t ∧
      (∀ X Y, X < 64 → Y < 32 → (t.fb.pixel X Y ≠ s.fb.pixel X Y ↔
        ∃ r c, r < n.toNat ∧ c < 8 ∧ X = (s.getV x).toNat % 64 + c ∧ Y = (s.getV y).toNat % 32 + r ∧
          (s.readByte (s.i.toNat + r)).getLsbD (7 - c) = true)) ∧
      (t.getV 0xF#4 = 0 ∨ t.getV 0xF#4 = 1) ∧
      (t.getV 0xF#4 = 1 ↔
        ∃ X Y, X < 64 ∧ Y < 32 ∧ s.fb.pixel X Y = true ∧ t.fb.pixel X Y = false) ∧
      (∀ z, z ≠ 0xF#4 → t.getV z = s.getV z) ∧
      t = { s with v := t.v, fb := t.fb, dirty := true, pc := s.pc + 2 }

/-- Drawing the same sprite twice at the same place restores the screen; on a clear screen the second draw sets
VF = 1 exactly when the first drew a pixel (R192, corner cases; log entry 14 says why only on a clear screen). -/
def Obligations.DrawingTwiceRestoresTheScreen : Prop :=
  ∀ (x y n : Nibble) (s t u : State), n.toNat = 0 ∨ s.i.toNat + n.toNat ≤ 0x1000 →
    exec (.drw x y n) s = .next t →
    u.params = s.params → u.mem = s.mem → u.i = s.i → u.fb = t.fb →
    u.getV x = s.getV x → u.getV y = s.getV y →
    ∃ r, exec (.drw x y n) u = .next r ∧ r.fb = s.fb ∧
      (s.fb = Frame.blank → (r.getV 0xF#4 = 1 ↔ t.fb ≠ s.fb))

/-! ### Keys and timers -/

/-- EX9E and EXA1 skip by the latch of key VX when VX is at most 0xF, and of key VX & 0xF under
`KEY_INDEX_POLICY = mask` (R210, R211, R212; spec decision D6); nothing else changes. -/
def Obligations.KeySkipsTestTheLatch : Prop :=
  ∀ (x : Nibble) (s : State), (s.getV x).toNat ≤ 0xF ∨ s.params.keyIndexPolicy = .mask →
    exec (.skp x) s = .next { s with
      pc := if s.key[(s.getV x).toNat % 16] = true then s.pc + 4 else s.pc + 2 } ∧
    exec (.sknp x) s = .next { s with
      pc := if s.key[(s.getV x).toNat % 16] = false then s.pc + 4 else s.pc + 2 }

/-- EX9E and EXA1 with VX above 0xF raise KEY_INDEX_FAULT with VX as the record under `KEY_INDEX_POLICY = fault`
(R212; spec decision D6) and change nothing else. -/
def Obligations.KeyIndexOutOfRangeRaises : Prop :=
  ∀ (x : Nibble) (s : State), 0xF < (s.getV x).toNat → s.params.keyIndexPolicy = .fault →
    exec (.skp x) s = .next { s with execState := .halted .keyIndexFault ((s.getV x).setWidth 16) } ∧
    exec (.sknp x) s = .next { s with execState := .halted .keyIndexFault ((s.getV x).setWidth 16) }

/-- FX07 reads `DT` into VX and FX15 writes `DT` from VX; no other register changes; and their words (R213,
R215). -/
def Obligations.DelayTimerIsReadAndWritten : Prop :=
  ∀ (x : Nibble) (s : State),
    (encode (.ldVxDt x)).toNat = 0xF007 + 256 * x.toNat ∧
    (encode (.ldDtVx x)).toNat = 0xF015 + 256 * x.toNat ∧
    (∃ t, exec (.ldVxDt x) s = .next t ∧ t.getV x = s.dt ∧
      (∀ z, z ≠ x → t.getV z = s.getV z) ∧ t = { s with v := t.v, pc := s.pc + 2 }) ∧
    exec (.ldDtVx x) s = .next { s with dt := s.getV x, pc := s.pc + 2 }

/-- FX18 writes `ST` from VX, and `sound_active` follows at once (R216, R223; spec decision D22). -/
def Obligations.SoundTimerIsWritten : Prop :=
  ∀ (x : Nibble) (s : State), ∃ t, exec (.ldStVx x) s = .next t ∧ t.st = s.getV x ∧
    (t.soundActive = true ↔ (s.getV x).toNat ≠ 0) ∧ t = { s with st := t.st, pc := s.pc + 2 }

/-- FX0A enters `WaitingForKey(x)` with `pc` past it, and nothing else changes, a key already held included (R214;
spec decision D17). -/
def Obligations.KeyWaitSuspends : Prop :=
  ∀ (x : Nibble) (s : State),
    exec (.ldVxK x) s = .next { s with execState := .waitingForKey x, pc := s.pc + 2 }

/-! ### The host's transactions -/

/-- `set_key` (R221; spec decisions D11, D29): in a key wait a press writes the key's value into the waiting
register and resumes, a release only clears the latch; while executing only the latch changes; when halted
nothing does. -/
def Obligations.OnlyAPressResolvesTheKeyWait : Prop :=
  ∀ (s : State) (k r : Nibble) (b : Bool),
    (s.execState = .waitingForKey r → (Txn.setKey k true).apply s = .next ({ s with
      key := s.key.set k.toNat true, v := s.v.set r.toNat (k.setWidth 8), execState := .executing }, .none)) ∧
    (s.execState = .waitingForKey r → (Txn.setKey k false).apply s = .next ({ s with
      key := s.key.set k.toNat false }, .none)) ∧
    (s.execState = .executing → (Txn.setKey k b).apply s = .next ({ s with
      key := s.key.set k.toNat b }, .none)) ∧
    (isHalted s = true → (Txn.setKey k b).apply s = .next (s, .none))

/-- `tick_timers` (R220, R224; spec decisions D11, D17, D22): each non-zero timer falls by one, in a key wait too,
`beep_event` is 1 exactly on the tick that takes `ST` from 1 to 0, and nothing else changes; when halted nothing
does. -/
def Obligations.TickCountsDownAndBeepsOnce : Prop :=
  ∀ s : State, ∃ t b, Txn.tickTimers.apply s = .next (t, .beep b) ∧
    (isHalted s = true → t = s ∧ b = false) ∧
    (isHalted s = false → t.dt.toNat = s.dt.toNat - 1 ∧ t.st.toNat = s.st.toNat - 1 ∧
      (b = true ↔ s.st.toNat = 1 ∧ t.st.toNat = 0) ∧ t = { s with dt := t.dt, st := t.st })

/-- `consume_frame` returns the frame and clears `dirty`, and changes nothing else, in every execution state
(R195; spec decisions D1, D11). -/
def Obligations.ConsumeFrameClearsDirty : Prop :=
  ∀ s : State, Txn.consumeFrame.apply s = .next ({ s with dirty := false }, .frame s.fb)

/-- `load` (R60; spec decision D24): more than 3584 bytes are rejected with no change; else the image stands at
0x200 and up, every other byte and every register unchanged. -/
def Obligations.LoadPlacesTheImage : Prop :=
  ∀ (s : State) (bytes : List Byte),
    (bytes.length > 3584 → (Txn.load bytes).apply s = .next (s, .load .loadCapacity)) ∧
    (bytes.length ≤ 3584 → ∃ t, (Txn.load bytes).apply s = .next (t, .load .ok) ∧
      (∀ j (h : j < bytes.length), t.readByte (0x200 + j) = bytes[j]) ∧
      (∀ a, a < 0x200 ∨ 0x200 + bytes.length ≤ a → t.readByte a = s.readByte a) ∧
      t = { s with mem := t.mem })

/-- `power_on` leaves every piece of state at its reset value, from any state (R270, R271; `exec_state` by spec
decision D11): memory 0 but the font, which is FONT_TABLE. The parameters and the random count are the model's own
and stay (log entries 1, 2). `State.reset` is such a state. -/
def Obligations.PowerOnLeavesTheResetValues : Prop :=
  (∀ (s t : State) (r : Reply), Txn.powerOn.apply s = .next (t, r) →
    (∀ a, inFontRegion s.params a = false → t.readByte a = 0) ∧ FontIntact t ∧
    (∀ x, t.getV x = 0) ∧ t.i = 0 ∧ t.pc = 0x200 ∧ (∀ j : Fin 16, t.stack[j] = 0) ∧ t.sp = 0 ∧
    t.dt = 0 ∧ t.st = 0 ∧ (∀ X Y, t.fb.pixel X Y = false) ∧ (∀ k : Fin 16, t.key[k] = false) ∧
    t.dirty = false ∧ t.execState = .executing ∧ t.params = s.params ∧ t.rndCount = s.rndCount) ∧
  Txn.powerOn.apply State.reset = .next (State.reset, .none)

/-- `initialize` sets `pc`, `I`, `SP` and the font, keeps every other byte and every other piece of state,
`exec_state` included, and is idempotent (R272; spec decision D21). -/
def Obligations.InitializeResetsPcIndexStackAndFont : Prop :=
  ∀ s : State, ∃ t, Txn.initCore.apply s = .next (t, .none) ∧
    t = { s with pc := 0x200, i := 0, sp := 0, mem := t.mem } ∧ FontIntact t ∧
    (∀ a, inFontRegion s.params a = false → t.readByte a = s.readByte a) ∧
    Txn.initCore.apply t = .next (t, .none)

/-- `Halted` is terminal (R243; spec decisions D11, D21): no transaction but `power_on` leaves it, and `step`,
`tick_timers` and `set_key` change nothing in it. -/
def Obligations.OnlyPowerOnLeavesHalted : Prop :=
  ∀ (x : Txn) (s t : State) (r : Reply), isHalted s = true → x.apply s = .next (t, r) →
    (x ≠ .powerOn → t.execState = s.execState) ∧
    (x = .powerOn → t.execState = .executing) ∧
    (x = .step → t = s ∧ r = .step .halted) ∧ (x = .tickTimers → t = s ∧ r = .beep false) ∧
    ((∃ k b, x = .setKey k b) → t = s)

/-! ### Infinite runs -/

/-- Fair infinite runs (R283; spec decisions D17, D30): `step` and `tick_timers` each come infinitely often, in any
interleaving. From `Executing`, a `step` comes while the core is still `Executing`; and a key wait that no press and no
`power_on` ends goes on for ever, in which both timers run down to 0 and stay there (R220, R282). -/
def Obligations.FairRunsStepAndDrainTheTimers : Prop :=
  ∀ (ts : Nat → Txn) (σ : Nat → State), IsRun ts σ → Fair ts → ∀ n,
    ((σ n).execState = .executing →
      ∃ m, n ≤ m ∧ ts m = .step ∧ ∀ l, n ≤ l → l ≤ m → (σ l).execState = .executing) ∧
    (∀ r, (σ n).execState = .waitingForKey r →
      (∀ m, n ≤ m → ts m ≠ .powerOn ∧ ∀ k, ts m ≠ .setKey k true) →
      ∃ m, n ≤ m ∧ ∀ l, m ≤ l →
        (σ l).dt = 0 ∧ (σ l).st = 0 ∧ (σ l).execState = .waitingForKey r)
end

