-- ==== Sys2Proof/Laws/State.lean ====
section
/-! SUPPORT. One lemma per field per update of the state, each true by rfl, and the same for the accessors
`getV`, `readByte`, `npc`, `baseAddr`: later proofs never unfold a record update. -/
namespace Sys2Proof.Machine

variable (s : State)

@[simp] theorem writeByte_params (a : Nat) (b : Byte) : (s.writeByte a b).params = s.params := rfl
@[simp] theorem writeByte_mem (a : Nat) (b : Byte) : (s.writeByte a b).mem = Memory.write s.params s.mem a b := rfl
@[simp] theorem writeByte_v (a : Nat) (b : Byte) : (s.writeByte a b).v = s.v := rfl
@[simp] theorem writeByte_i (a : Nat) (b : Byte) : (s.writeByte a b).i = s.i := rfl
@[simp] theorem writeByte_pc (a : Nat) (b : Byte) : (s.writeByte a b).pc = s.pc := rfl
@[simp] theorem writeByte_stack (a : Nat) (b : Byte) : (s.writeByte a b).stack = s.stack := rfl
@[simp] theorem writeByte_sp (a : Nat) (b : Byte) : (s.writeByte a b).sp = s.sp := rfl
@[simp] theorem writeByte_dt (a : Nat) (b : Byte) : (s.writeByte a b).dt = s.dt := rfl
@[simp] theorem writeByte_st (a : Nat) (b : Byte) : (s.writeByte a b).st = s.st := rfl
@[simp] theorem writeByte_fb (a : Nat) (b : Byte) : (s.writeByte a b).fb = s.fb := rfl
@[simp] theorem writeByte_key (a : Nat) (b : Byte) : (s.writeByte a b).key = s.key := rfl
@[simp] theorem writeByte_dirty (a : Nat) (b : Byte) : (s.writeByte a b).dirty = s.dirty := rfl
@[simp] theorem writeByte_execState (a : Nat) (b : Byte) : (s.writeByte a b).execState = s.execState := rfl
@[simp] theorem writeByte_rndCount (a : Nat) (b : Byte) : (s.writeByte a b).rndCount = s.rndCount := rfl
@[simp] theorem writeByte_getV (a : Nat) (b : Byte) (y : Nibble) : (s.writeByte a b).getV y = s.getV y := rfl
@[simp] theorem writeByte_baseAddr (a : Nat) (b : Byte) : (s.writeByte a b).baseAddr = s.baseAddr := rfl
@[simp] theorem writeByte_npc (a : Nat) (b : Byte) : (s.writeByte a b).npc = s.npc := rfl

@[simp] theorem setV_params (x : Nibble) (b : Byte) : (s.setV x b).params = s.params := rfl
@[simp] theorem setV_mem (x : Nibble) (b : Byte) : (s.setV x b).mem = s.mem := rfl
@[simp] theorem setV_v (x : Nibble) (b : Byte) : (s.setV x b).v = s.v.set x.toNat b := rfl
@[simp] theorem setV_i (x : Nibble) (b : Byte) : (s.setV x b).i = s.i := rfl
@[simp] theorem setV_pc (x : Nibble) (b : Byte) : (s.setV x b).pc = s.pc := rfl
@[simp] theorem setV_stack (x : Nibble) (b : Byte) : (s.setV x b).stack = s.stack := rfl
@[simp] theorem setV_sp (x : Nibble) (b : Byte) : (s.setV x b).sp = s.sp := rfl
@[simp] theorem setV_dt (x : Nibble) (b : Byte) : (s.setV x b).dt = s.dt := rfl
@[simp] theorem setV_st (x : Nibble) (b : Byte) : (s.setV x b).st = s.st := rfl
@[simp] theorem setV_fb (x : Nibble) (b : Byte) : (s.setV x b).fb = s.fb := rfl
@[simp] theorem setV_key (x : Nibble) (b : Byte) : (s.setV x b).key = s.key := rfl
@[simp] theorem setV_dirty (x : Nibble) (b : Byte) : (s.setV x b).dirty = s.dirty := rfl
@[simp] theorem setV_execState (x : Nibble) (b : Byte) : (s.setV x b).execState = s.execState := rfl
@[simp] theorem setV_rndCount (x : Nibble) (b : Byte) : (s.setV x b).rndCount = s.rndCount := rfl
@[simp] theorem setV_readByte (x : Nibble) (b : Byte) (c : Nat) : (s.setV x b).readByte c = s.readByte c := rfl
@[simp] theorem setV_baseAddr (x : Nibble) (b : Byte) : (s.setV x b).baseAddr = s.baseAddr := rfl
@[simp] theorem setV_npc (x : Nibble) (b : Byte) : (s.setV x b).npc = s.npc := rfl

@[simp] theorem setI_params (w : Word) : (s.setI w).params = s.params := rfl
@[simp] theorem setI_mem (w : Word) : (s.setI w).mem = s.mem := rfl
@[simp] theorem setI_v (w : Word) : (s.setI w).v = s.v := rfl
@[simp] theorem setI_i (w : Word) : (s.setI w).i = w := rfl
@[simp] theorem setI_pc (w : Word) : (s.setI w).pc = s.pc := rfl
@[simp] theorem setI_stack (w : Word) : (s.setI w).stack = s.stack := rfl
@[simp] theorem setI_sp (w : Word) : (s.setI w).sp = s.sp := rfl
@[simp] theorem setI_dt (w : Word) : (s.setI w).dt = s.dt := rfl
@[simp] theorem setI_st (w : Word) : (s.setI w).st = s.st := rfl
@[simp] theorem setI_fb (w : Word) : (s.setI w).fb = s.fb := rfl
@[simp] theorem setI_key (w : Word) : (s.setI w).key = s.key := rfl
@[simp] theorem setI_dirty (w : Word) : (s.setI w).dirty = s.dirty := rfl
@[simp] theorem setI_execState (w : Word) : (s.setI w).execState = s.execState := rfl
@[simp] theorem setI_rndCount (w : Word) : (s.setI w).rndCount = s.rndCount := rfl
@[simp] theorem setI_getV (w : Word) (y : Nibble) : (s.setI w).getV y = s.getV y := rfl
@[simp] theorem setI_readByte (w : Word) (c : Nat) : (s.setI w).readByte c = s.readByte c := rfl
@[simp] theorem setI_npc (w : Word) : (s.setI w).npc = s.npc := rfl

@[simp] theorem setPc_params (w : Word) : (s.setPc w).params = s.params := rfl
@[simp] theorem setPc_mem (w : Word) : (s.setPc w).mem = s.mem := rfl
@[simp] theorem setPc_v (w : Word) : (s.setPc w).v = s.v := rfl
@[simp] theorem setPc_i (w : Word) : (s.setPc w).i = s.i := rfl
@[simp] theorem setPc_pc (w : Word) : (s.setPc w).pc = w := rfl
@[simp] theorem setPc_stack (w : Word) : (s.setPc w).stack = s.stack := rfl
@[simp] theorem setPc_sp (w : Word) : (s.setPc w).sp = s.sp := rfl
@[simp] theorem setPc_dt (w : Word) : (s.setPc w).dt = s.dt := rfl
@[simp] theorem setPc_st (w : Word) : (s.setPc w).st = s.st := rfl
@[simp] theorem setPc_fb (w : Word) : (s.setPc w).fb = s.fb := rfl
@[simp] theorem setPc_key (w : Word) : (s.setPc w).key = s.key := rfl
@[simp] theorem setPc_dirty (w : Word) : (s.setPc w).dirty = s.dirty := rfl
@[simp] theorem setPc_execState (w : Word) : (s.setPc w).execState = s.execState := rfl
@[simp] theorem setPc_rndCount (w : Word) : (s.setPc w).rndCount = s.rndCount := rfl
@[simp] theorem setPc_getV (w : Word) (y : Nibble) : (s.setPc w).getV y = s.getV y := rfl
@[simp] theorem setPc_readByte (w : Word) (c : Nat) : (s.setPc w).readByte c = s.readByte c := rfl
@[simp] theorem setPc_baseAddr (w : Word) : (s.setPc w).baseAddr = s.baseAddr := rfl

@[simp] theorem setDt_params (b : Byte) : (s.setDt b).params = s.params := rfl
@[simp] theorem setDt_mem (b : Byte) : (s.setDt b).mem = s.mem := rfl
@[simp] theorem setDt_v (b : Byte) : (s.setDt b).v = s.v := rfl
@[simp] theorem setDt_i (b : Byte) : (s.setDt b).i = s.i := rfl
@[simp] theorem setDt_pc (b : Byte) : (s.setDt b).pc = s.pc := rfl
@[simp] theorem setDt_stack (b : Byte) : (s.setDt b).stack = s.stack := rfl
@[simp] theorem setDt_sp (b : Byte) : (s.setDt b).sp = s.sp := rfl
@[simp] theorem setDt_dt (b : Byte) : (s.setDt b).dt = b := rfl
@[simp] theorem setDt_st (b : Byte) : (s.setDt b).st = s.st := rfl
@[simp] theorem setDt_fb (b : Byte) : (s.setDt b).fb = s.fb := rfl
@[simp] theorem setDt_key (b : Byte) : (s.setDt b).key = s.key := rfl
@[simp] theorem setDt_dirty (b : Byte) : (s.setDt b).dirty = s.dirty := rfl
@[simp] theorem setDt_execState (b : Byte) : (s.setDt b).execState = s.execState := rfl
@[simp] theorem setDt_rndCount (b : Byte) : (s.setDt b).rndCount = s.rndCount := rfl
@[simp] theorem setDt_getV (b : Byte) (y : Nibble) : (s.setDt b).getV y = s.getV y := rfl
@[simp] theorem setDt_readByte (b : Byte) (c : Nat) : (s.setDt b).readByte c = s.readByte c := rfl
@[simp] theorem setDt_baseAddr (b : Byte) : (s.setDt b).baseAddr = s.baseAddr := rfl
@[simp] theorem setDt_npc (b : Byte) : (s.setDt b).npc = s.npc := rfl

@[simp] theorem setSt_params (b : Byte) : (s.setSt b).params = s.params := rfl
@[simp] theorem setSt_mem (b : Byte) : (s.setSt b).mem = s.mem := rfl
@[simp] theorem setSt_v (b : Byte) : (s.setSt b).v = s.v := rfl
@[simp] theorem setSt_i (b : Byte) : (s.setSt b).i = s.i := rfl
@[simp] theorem setSt_pc (b : Byte) : (s.setSt b).pc = s.pc := rfl
@[simp] theorem setSt_stack (b : Byte) : (s.setSt b).stack = s.stack := rfl
@[simp] theorem setSt_sp (b : Byte) : (s.setSt b).sp = s.sp := rfl
@[simp] theorem setSt_dt (b : Byte) : (s.setSt b).dt = s.dt := rfl
@[simp] theorem setSt_st (b : Byte) : (s.setSt b).st = b := rfl
@[simp] theorem setSt_fb (b : Byte) : (s.setSt b).fb = s.fb := rfl
@[simp] theorem setSt_key (b : Byte) : (s.setSt b).key = s.key := rfl
@[simp] theorem setSt_dirty (b : Byte) : (s.setSt b).dirty = s.dirty := rfl
@[simp] theorem setSt_execState (b : Byte) : (s.setSt b).execState = s.execState := rfl
@[simp] theorem setSt_rndCount (b : Byte) : (s.setSt b).rndCount = s.rndCount := rfl
@[simp] theorem setSt_getV (b : Byte) (y : Nibble) : (s.setSt b).getV y = s.getV y := rfl
@[simp] theorem setSt_readByte (b : Byte) (c : Nat) : (s.setSt b).readByte c = s.readByte c := rfl
@[simp] theorem setSt_baseAddr (b : Byte) : (s.setSt b).baseAddr = s.baseAddr := rfl
@[simp] theorem setSt_npc (b : Byte) : (s.setSt b).npc = s.npc := rfl

@[simp] theorem setKeyLatch_params (k : Nibble) (b : Bool) : (s.setKeyLatch k b).params = s.params := rfl
@[simp] theorem setKeyLatch_mem (k : Nibble) (b : Bool) : (s.setKeyLatch k b).mem = s.mem := rfl
@[simp] theorem setKeyLatch_v (k : Nibble) (b : Bool) : (s.setKeyLatch k b).v = s.v := rfl
@[simp] theorem setKeyLatch_i (k : Nibble) (b : Bool) : (s.setKeyLatch k b).i = s.i := rfl
@[simp] theorem setKeyLatch_pc (k : Nibble) (b : Bool) : (s.setKeyLatch k b).pc = s.pc := rfl
@[simp] theorem setKeyLatch_stack (k : Nibble) (b : Bool) : (s.setKeyLatch k b).stack = s.stack := rfl
@[simp] theorem setKeyLatch_sp (k : Nibble) (b : Bool) : (s.setKeyLatch k b).sp = s.sp := rfl
@[simp] theorem setKeyLatch_dt (k : Nibble) (b : Bool) : (s.setKeyLatch k b).dt = s.dt := rfl
@[simp] theorem setKeyLatch_st (k : Nibble) (b : Bool) : (s.setKeyLatch k b).st = s.st := rfl
@[simp] theorem setKeyLatch_fb (k : Nibble) (b : Bool) : (s.setKeyLatch k b).fb = s.fb := rfl
@[simp] theorem setKeyLatch_key (k : Nibble) (b : Bool) : (s.setKeyLatch k b).key = s.key.set k.toNat b := rfl
@[simp] theorem setKeyLatch_dirty (k : Nibble) (b : Bool) : (s.setKeyLatch k b).dirty = s.dirty := rfl
@[simp] theorem setKeyLatch_execState (k : Nibble) (b : Bool) : (s.setKeyLatch k b).execState = s.execState := rfl
@[simp] theorem setKeyLatch_rndCount (k : Nibble) (b : Bool) : (s.setKeyLatch k b).rndCount = s.rndCount := rfl
@[simp] theorem setKeyLatch_getV (k : Nibble) (b : Bool) (y : Nibble) : (s.setKeyLatch k b).getV y = s.getV y := rfl
@[simp] theorem setKeyLatch_readByte (k : Nibble) (b : Bool) (c : Nat) : (s.setKeyLatch k b).readByte c = s.readByte c := rfl
@[simp] theorem setKeyLatch_baseAddr (k : Nibble) (b : Bool) : (s.setKeyLatch k b).baseAddr = s.baseAddr := rfl
@[simp] theorem setKeyLatch_npc (k : Nibble) (b : Bool) : (s.setKeyLatch k b).npc = s.npc := rfl

@[simp] theorem setDirty_params (b : Bool) : (s.setDirty b).params = s.params := rfl
@[simp] theorem setDirty_mem (b : Bool) : (s.setDirty b).mem = s.mem := rfl
@[simp] theorem setDirty_v (b : Bool) : (s.setDirty b).v = s.v := rfl
@[simp] theorem setDirty_i (b : Bool) : (s.setDirty b).i = s.i := rfl
@[simp] theorem setDirty_pc (b : Bool) : (s.setDirty b).pc = s.pc := rfl
@[simp] theorem setDirty_stack (b : Bool) : (s.setDirty b).stack = s.stack := rfl
@[simp] theorem setDirty_sp (b : Bool) : (s.setDirty b).sp = s.sp := rfl
@[simp] theorem setDirty_dt (b : Bool) : (s.setDirty b).dt = s.dt := rfl
@[simp] theorem setDirty_st (b : Bool) : (s.setDirty b).st = s.st := rfl
@[simp] theorem setDirty_fb (b : Bool) : (s.setDirty b).fb = s.fb := rfl
@[simp] theorem setDirty_key (b : Bool) : (s.setDirty b).key = s.key := rfl
@[simp] theorem setDirty_dirty (b : Bool) : (s.setDirty b).dirty = b := rfl
@[simp] theorem setDirty_execState (b : Bool) : (s.setDirty b).execState = s.execState := rfl
@[simp] theorem setDirty_rndCount (b : Bool) : (s.setDirty b).rndCount = s.rndCount := rfl
@[simp] theorem setDirty_getV (b : Bool) (y : Nibble) : (s.setDirty b).getV y = s.getV y := rfl
@[simp] theorem setDirty_readByte (b : Bool) (c : Nat) : (s.setDirty b).readByte c = s.readByte c := rfl
@[simp] theorem setDirty_baseAddr (b : Bool) : (s.setDirty b).baseAddr = s.baseAddr := rfl
@[simp] theorem setDirty_npc (b : Bool) : (s.setDirty b).npc = s.npc := rfl

@[simp] theorem setExecState_params (e : ExecState) : (s.setExecState e).params = s.params := rfl
@[simp] theorem setExecState_mem (e : ExecState) : (s.setExecState e).mem = s.mem := rfl
@[simp] theorem setExecState_v (e : ExecState) : (s.setExecState e).v = s.v := rfl
@[simp] theorem setExecState_i (e : ExecState) : (s.setExecState e).i = s.i := rfl
@[simp] theorem setExecState_pc (e : ExecState) : (s.setExecState e).pc = s.pc := rfl
@[simp] theorem setExecState_stack (e : ExecState) : (s.setExecState e).stack = s.stack := rfl
@[simp] theorem setExecState_sp (e : ExecState) : (s.setExecState e).sp = s.sp := rfl
@[simp] theorem setExecState_dt (e : ExecState) : (s.setExecState e).dt = s.dt := rfl
@[simp] theorem setExecState_st (e : ExecState) : (s.setExecState e).st = s.st := rfl
@[simp] theorem setExecState_fb (e : ExecState) : (s.setExecState e).fb = s.fb := rfl
@[simp] theorem setExecState_key (e : ExecState) : (s.setExecState e).key = s.key := rfl
@[simp] theorem setExecState_dirty (e : ExecState) : (s.setExecState e).dirty = s.dirty := rfl
@[simp] theorem setExecState_execState (e : ExecState) : (s.setExecState e).execState = e := rfl
@[simp] theorem setExecState_rndCount (e : ExecState) : (s.setExecState e).rndCount = s.rndCount := rfl
@[simp] theorem setExecState_getV (e : ExecState) (y : Nibble) : (s.setExecState e).getV y = s.getV y := rfl
@[simp] theorem setExecState_readByte (e : ExecState) (c : Nat) : (s.setExecState e).readByte c = s.readByte c := rfl
@[simp] theorem setExecState_baseAddr (e : ExecState) : (s.setExecState e).baseAddr = s.baseAddr := rfl
@[simp] theorem setExecState_npc (e : ExecState) : (s.setExecState e).npc = s.npc := rfl

@[simp] theorem setFrame_params (f : Frame) : (s.setFrame f).params = s.params := rfl
@[simp] theorem setFrame_mem (f : Frame) : (s.setFrame f).mem = s.mem := rfl
@[simp] theorem setFrame_v (f : Frame) : (s.setFrame f).v = s.v := rfl
@[simp] theorem setFrame_i (f : Frame) : (s.setFrame f).i = s.i := rfl
@[simp] theorem setFrame_pc (f : Frame) : (s.setFrame f).pc = s.pc := rfl
@[simp] theorem setFrame_stack (f : Frame) : (s.setFrame f).stack = s.stack := rfl
@[simp] theorem setFrame_sp (f : Frame) : (s.setFrame f).sp = s.sp := rfl
@[simp] theorem setFrame_dt (f : Frame) : (s.setFrame f).dt = s.dt := rfl
@[simp] theorem setFrame_st (f : Frame) : (s.setFrame f).st = s.st := rfl
@[simp] theorem setFrame_fb (f : Frame) : (s.setFrame f).fb = f := rfl
@[simp] theorem setFrame_key (f : Frame) : (s.setFrame f).key = s.key := rfl
@[simp] theorem setFrame_dirty (f : Frame) : (s.setFrame f).dirty = s.dirty := rfl
@[simp] theorem setFrame_execState (f : Frame) : (s.setFrame f).execState = s.execState := rfl
@[simp] theorem setFrame_rndCount (f : Frame) : (s.setFrame f).rndCount = s.rndCount := rfl
@[simp] theorem setFrame_getV (f : Frame) (y : Nibble) : (s.setFrame f).getV y = s.getV y := rfl
@[simp] theorem setFrame_readByte (f : Frame) (c : Nat) : (s.setFrame f).readByte c = s.readByte c := rfl
@[simp] theorem setFrame_baseAddr (f : Frame) : (s.setFrame f).baseAddr = s.baseAddr := rfl
@[simp] theorem setFrame_npc (f : Frame) : (s.setFrame f).npc = s.npc := rfl

@[simp] theorem loadRegs_params (a k : Nat) : (s.loadRegs a k).params = s.params := by simp only [State.loadRegs]
@[simp] theorem loadRegs_mem (a k : Nat) : (s.loadRegs a k).mem = s.mem := by simp only [State.loadRegs]
@[simp] theorem loadRegs_v (a k : Nat) : (s.loadRegs a k).v = Vector.ofFn fun j => if j.val < k then s.readByte (a + j.val) else s.v[j] := by simp only [State.loadRegs]
@[simp] theorem loadRegs_i (a k : Nat) : (s.loadRegs a k).i = s.i := by simp only [State.loadRegs]
@[simp] theorem loadRegs_pc (a k : Nat) : (s.loadRegs a k).pc = s.pc := by simp only [State.loadRegs]
@[simp] theorem loadRegs_stack (a k : Nat) : (s.loadRegs a k).stack = s.stack := by simp only [State.loadRegs]
@[simp] theorem loadRegs_sp (a k : Nat) : (s.loadRegs a k).sp = s.sp := by simp only [State.loadRegs]
@[simp] theorem loadRegs_dt (a k : Nat) : (s.loadRegs a k).dt = s.dt := by simp only [State.loadRegs]
@[simp] theorem loadRegs_st (a k : Nat) : (s.loadRegs a k).st = s.st := by simp only [State.loadRegs]
@[simp] theorem loadRegs_fb (a k : Nat) : (s.loadRegs a k).fb = s.fb := by simp only [State.loadRegs]
@[simp] theorem loadRegs_key (a k : Nat) : (s.loadRegs a k).key = s.key := by simp only [State.loadRegs]
@[simp] theorem loadRegs_dirty (a k : Nat) : (s.loadRegs a k).dirty = s.dirty := by simp only [State.loadRegs]
@[simp] theorem loadRegs_execState (a k : Nat) : (s.loadRegs a k).execState = s.execState := by simp only [State.loadRegs]
@[simp] theorem loadRegs_rndCount (a k : Nat) : (s.loadRegs a k).rndCount = s.rndCount := by simp only [State.loadRegs]
@[simp] theorem loadRegs_readByte (a k : Nat) (c : Nat) : (s.loadRegs a k).readByte c = s.readByte c := by simp only [State.readByte, State.loadRegs]
@[simp] theorem loadRegs_baseAddr (a k : Nat) : (s.loadRegs a k).baseAddr = s.baseAddr := by simp only [State.baseAddr, State.loadRegs]
@[simp] theorem loadRegs_npc (a k : Nat) : (s.loadRegs a k).npc = s.npc := by simp only [State.npc, State.loadRegs]

@[simp] theorem drawRnd_params : (s.drawRnd.2).params = s.params := rfl
@[simp] theorem drawRnd_mem : (s.drawRnd.2).mem = s.mem := rfl
@[simp] theorem drawRnd_v : (s.drawRnd.2).v = s.v := rfl
@[simp] theorem drawRnd_i : (s.drawRnd.2).i = s.i := rfl
@[simp] theorem drawRnd_pc : (s.drawRnd.2).pc = s.pc := rfl
@[simp] theorem drawRnd_stack : (s.drawRnd.2).stack = s.stack := rfl
@[simp] theorem drawRnd_sp : (s.drawRnd.2).sp = s.sp := rfl
@[simp] theorem drawRnd_dt : (s.drawRnd.2).dt = s.dt := rfl
@[simp] theorem drawRnd_st : (s.drawRnd.2).st = s.st := rfl
@[simp] theorem drawRnd_fb : (s.drawRnd.2).fb = s.fb := rfl
@[simp] theorem drawRnd_key : (s.drawRnd.2).key = s.key := rfl
@[simp] theorem drawRnd_dirty : (s.drawRnd.2).dirty = s.dirty := rfl
@[simp] theorem drawRnd_execState : (s.drawRnd.2).execState = s.execState := rfl
@[simp] theorem drawRnd_rndCount : (s.drawRnd.2).rndCount = s.rndCount + 1 := rfl
@[simp] theorem drawRnd_getV (y : Nibble) : (s.drawRnd.2).getV y = s.getV y := rfl
@[simp] theorem drawRnd_readByte (c : Nat) : (s.drawRnd.2).readByte c = s.readByte c := rfl
@[simp] theorem drawRnd_baseAddr : (s.drawRnd.2).baseAddr = s.baseAddr := rfl
@[simp] theorem drawRnd_npc : (s.drawRnd.2).npc = s.npc := rfl

@[simp] theorem advance_params : (s.advance).params = s.params := rfl
@[simp] theorem advance_mem : (s.advance).mem = s.mem := rfl
@[simp] theorem advance_v : (s.advance).v = s.v := rfl
@[simp] theorem advance_i : (s.advance).i = s.i := rfl
@[simp] theorem advance_pc : (s.advance).pc = s.pc + 2 := rfl
@[simp] theorem advance_stack : (s.advance).stack = s.stack := rfl
@[simp] theorem advance_sp : (s.advance).sp = s.sp := rfl
@[simp] theorem advance_dt : (s.advance).dt = s.dt := rfl
@[simp] theorem advance_st : (s.advance).st = s.st := rfl
@[simp] theorem advance_fb : (s.advance).fb = s.fb := rfl
@[simp] theorem advance_key : (s.advance).key = s.key := rfl
@[simp] theorem advance_dirty : (s.advance).dirty = s.dirty := rfl
@[simp] theorem advance_execState : (s.advance).execState = s.execState := rfl
@[simp] theorem advance_rndCount : (s.advance).rndCount = s.rndCount := rfl
@[simp] theorem advance_getV (y : Nibble) : (s.advance).getV y = s.getV y := rfl
@[simp] theorem advance_readByte (c : Nat) : (s.advance).readByte c = s.readByte c := rfl
@[simp] theorem advance_baseAddr : (s.advance).baseAddr = s.baseAddr := rfl

@[simp] theorem skipIf_params (c : Bool) : (s.skipIf c).params = s.params := rfl
@[simp] theorem skipIf_mem (c : Bool) : (s.skipIf c).mem = s.mem := rfl
@[simp] theorem skipIf_v (c : Bool) : (s.skipIf c).v = s.v := rfl
@[simp] theorem skipIf_i (c : Bool) : (s.skipIf c).i = s.i := rfl
@[simp] theorem skipIf_pc (c : Bool) : (s.skipIf c).pc = if c = true then s.npc + 2 else s.npc := rfl
@[simp] theorem skipIf_stack (c : Bool) : (s.skipIf c).stack = s.stack := rfl
@[simp] theorem skipIf_sp (c : Bool) : (s.skipIf c).sp = s.sp := rfl
@[simp] theorem skipIf_dt (c : Bool) : (s.skipIf c).dt = s.dt := rfl
@[simp] theorem skipIf_st (c : Bool) : (s.skipIf c).st = s.st := rfl
@[simp] theorem skipIf_fb (c : Bool) : (s.skipIf c).fb = s.fb := rfl
@[simp] theorem skipIf_key (c : Bool) : (s.skipIf c).key = s.key := rfl
@[simp] theorem skipIf_dirty (c : Bool) : (s.skipIf c).dirty = s.dirty := rfl
@[simp] theorem skipIf_execState (c : Bool) : (s.skipIf c).execState = s.execState := rfl
@[simp] theorem skipIf_rndCount (c : Bool) : (s.skipIf c).rndCount = s.rndCount := rfl
@[simp] theorem skipIf_getV (c : Bool) (y : Nibble) : (s.skipIf c).getV y = s.getV y := rfl
@[simp] theorem skipIf_readByte (q : Bool) (c : Nat) : (s.skipIf q).readByte c = s.readByte c := rfl
@[simp] theorem skipIf_baseAddr (c : Bool) : (s.skipIf c).baseAddr = s.baseAddr := rfl

@[simp] theorem raise_params (f : Fault) (w : Word) : (s.raise f w).params = s.params := rfl
@[simp] theorem raise_mem (f : Fault) (w : Word) : (s.raise f w).mem = s.mem := rfl
@[simp] theorem raise_v (f : Fault) (w : Word) : (s.raise f w).v = s.v := rfl
@[simp] theorem raise_i (f : Fault) (w : Word) : (s.raise f w).i = s.i := rfl
@[simp] theorem raise_pc (f : Fault) (w : Word) : (s.raise f w).pc = s.pc := rfl
@[simp] theorem raise_stack (f : Fault) (w : Word) : (s.raise f w).stack = s.stack := rfl
@[simp] theorem raise_sp (f : Fault) (w : Word) : (s.raise f w).sp = s.sp := rfl
@[simp] theorem raise_dt (f : Fault) (w : Word) : (s.raise f w).dt = s.dt := rfl
@[simp] theorem raise_st (f : Fault) (w : Word) : (s.raise f w).st = s.st := rfl
@[simp] theorem raise_fb (f : Fault) (w : Word) : (s.raise f w).fb = s.fb := rfl
@[simp] theorem raise_key (f : Fault) (w : Word) : (s.raise f w).key = s.key := rfl
@[simp] theorem raise_dirty (f : Fault) (w : Word) : (s.raise f w).dirty = s.dirty := rfl
@[simp] theorem raise_execState (f : Fault) (w : Word) : (s.raise f w).execState = .halted f w := rfl
@[simp] theorem raise_rndCount (f : Fault) (w : Word) : (s.raise f w).rndCount = s.rndCount := rfl
@[simp] theorem raise_getV (f : Fault) (w : Word) (y : Nibble) : (s.raise f w).getV y = s.getV y := rfl
@[simp] theorem raise_readByte (f : Fault) (w : Word) (c : Nat) : (s.raise f w).readByte c = s.readByte c := rfl
@[simp] theorem raise_baseAddr (f : Fault) (w : Word) : (s.raise f w).baseAddr = s.baseAddr := rfl
@[simp] theorem raise_npc (f : Fault) (w : Word) : (s.raise f w).npc = s.npc := rfl

@[simp] theorem setVWithFlag_params (x : Nibble) (r g : Byte) : (s.setVWithFlag x r g).params = s.params := by
  simp only [State.setVWithFlag, setV_params]
@[simp] theorem setVWithFlag_mem (x : Nibble) (r g : Byte) : (s.setVWithFlag x r g).mem = s.mem := by
  simp only [State.setVWithFlag, setV_mem]
theorem setVWithFlag_v (x : Nibble) (r g : Byte) : (s.setVWithFlag x r g).v = ((s.setV x r).setV 0xF#4 g).v := by
  simp only [State.setVWithFlag]
@[simp] theorem setVWithFlag_i (x : Nibble) (r g : Byte) : (s.setVWithFlag x r g).i = s.i := by
  simp only [State.setVWithFlag, setV_i]
@[simp] theorem setVWithFlag_pc (x : Nibble) (r g : Byte) : (s.setVWithFlag x r g).pc = s.pc := by
  simp only [State.setVWithFlag, setV_pc]
@[simp] theorem setVWithFlag_stack (x : Nibble) (r g : Byte) : (s.setVWithFlag x r g).stack = s.stack := by
  simp only [State.setVWithFlag, setV_stack]
@[simp] theorem setVWithFlag_sp (x : Nibble) (r g : Byte) : (s.setVWithFlag x r g).sp = s.sp := by
  simp only [State.setVWithFlag, setV_sp]
@[simp] theorem setVWithFlag_dt (x : Nibble) (r g : Byte) : (s.setVWithFlag x r g).dt = s.dt := by
  simp only [State.setVWithFlag, setV_dt]
@[simp] theorem setVWithFlag_st (x : Nibble) (r g : Byte) : (s.setVWithFlag x r g).st = s.st := by
  simp only [State.setVWithFlag, setV_st]
@[simp] theorem setVWithFlag_fb (x : Nibble) (r g : Byte) : (s.setVWithFlag x r g).fb = s.fb := by
  simp only [State.setVWithFlag, setV_fb]
@[simp] theorem setVWithFlag_key (x : Nibble) (r g : Byte) : (s.setVWithFlag x r g).key = s.key := by
  simp only [State.setVWithFlag, setV_key]
@[simp] theorem setVWithFlag_dirty (x : Nibble) (r g : Byte) : (s.setVWithFlag x r g).dirty = s.dirty := by
  simp only [State.setVWithFlag, setV_dirty]
@[simp] theorem setVWithFlag_execState (x : Nibble) (r g : Byte) : (s.setVWithFlag x r g).execState = s.execState := by
  simp only [State.setVWithFlag, setV_execState]
@[simp] theorem setVWithFlag_rndCount (x : Nibble) (r g : Byte) : (s.setVWithFlag x r g).rndCount = s.rndCount := by
  simp only [State.setVWithFlag, setV_rndCount]
@[simp] theorem setVWithFlag_readByte (x : Nibble) (r g : Byte) (c : Nat) : (s.setVWithFlag x r g).readByte c = s.readByte c := by
  simp only [State.setVWithFlag, setV_readByte]
@[simp] theorem setVWithFlag_baseAddr (x : Nibble) (r g : Byte) : (s.setVWithFlag x r g).baseAddr = s.baseAddr := by
  simp only [State.setVWithFlag, setV_baseAddr]
@[simp] theorem setVWithFlag_npc (x : Nibble) (r g : Byte) : (s.setVWithFlag x r g).npc = s.npc := by
  simp only [State.setVWithFlag, setV_npc]

theorem npc_eq : s.npc = s.pc + 2 := rfl

/-- A register after a register write: the value written, or what it held. -/
@[simp] theorem setV_getV (x y : Nibble) (b : Byte) :
    (s.setV x b).getV y = if y = x then b else s.getV y := by
  simp only [State.getV, State.setV, Vector.getElem_set]
  by_cases h : y = x
  · simp [h]
  · have : x.toNat ≠ y.toNat := fun e => h (BitVec.eq_of_toNat_eq e.symm)
    simp [h, this]

/-- A register after a result and a flag: the flag wins when the destination is VF (R141). -/
@[simp] theorem setVWithFlag_getV (x y : Nibble) (r g : Byte) :
    (s.setVWithFlag x r g).getV y = if y = 0xF#4 then g else if y = x then r else s.getV y := by
  simp [State.setVWithFlag]

/-- A register after a block load: memory for the registers below `k` (R176). -/
@[simp] theorem loadRegs_getV (a k : Nat) (y : Nibble) :
    (s.loadRegs a k).getV y = if y.toNat < k then s.readByte (a + y.toNat) else s.getV y := by
  simp [State.getV, State.loadRegs]

/-- Two states with the same registers, read one by one, have the same register file. -/
theorem v_ext {s t : State} (h : ∀ y : Nibble, t.getV y = s.getV y) : t.v = s.v := by
  refine Vector.ext fun j hj => ?_
  simpa [State.getV, Nat.mod_eq_of_lt hj] using h (BitVec.ofNat 4 j)

end Sys2Proof.Machine
end

