-- ==== Sys2Proof/Laws/Memory.lean ====
section
/-! SUPPORT. Memory: a read after a write, the canonical form, and block stores and reads. -/
namespace Sys2Proof.Machine

theorem lookup_insert (m : Memory) (a c : Nat) (v : Byte) :
    Memory.lookup (Memory.insert m a v) c = if c = a then some v else Memory.lookup m c := by
  induction m with
  | nil => rfl
  | cons h m ih =>
    obtain ⟨b, w⟩ := h
    by_cases h1 : a < b
    · simp [Memory.insert, h1, Memory.lookup]
    · by_cases h2 : a = b
      · subst h2
        by_cases hc : c = a <;> simp [Memory.insert, Memory.lookup, hc]
      · simp only [Memory.insert, h1, h2, if_false, Memory.lookup, ih]
        by_cases hb : c = b
        · subst hb
          simp [Ne.symm h2]
        · simp [hb]

theorem lookup_erase (m : Memory) (a c : Nat) :
    Memory.lookup (Memory.erase m a) c = if c = a then none else Memory.lookup m c := by
  induction m with
  | nil => simp [Memory.erase, Memory.lookup]
  | cons h m ih =>
    obtain ⟨b, w⟩ := h
    unfold Memory.erase at ih ⊢
    by_cases hb : b = a
    · subst hb
      simp only [List.filter, bne_self_eq_false, ih, Memory.lookup]
      split_ifs <;> rfl
    · have hf : (b != a) = true := by simpa using hb
      simp only [List.filter, hf, Memory.lookup, ih]
      by_cases hc : c = b
      · subst hc
        simp [hb]
      · simp [hc]

/-- A byte after a write to memory: the value written at its address, every other byte as before. -/
theorem read_write (p : Params) (m : Memory) (a c : Nat) (v : Byte) :
    Memory.read p (Memory.write p m a v) c = if c = a then v else Memory.read p m c := by
  unfold Memory.read Memory.write
  split_ifs with h1 h2 h2
  · subst h2
    simp [lookup_erase, h1]
  · simp [lookup_erase, h2]
  · simp [lookup_insert, h2]
  · simp [lookup_insert, h2]

theorem wfFrom_mono {p : Params} {lo lo' : Nat} {m : Memory} (h : lo' ≤ lo)
    (hm : Memory.wfFrom p lo m = true) : Memory.wfFrom p lo' m = true := by
  cases m with
  | nil => rfl
  | cons c m =>
    obtain ⟨b, w⟩ := c
    simp only [Memory.wfFrom, Bool.and_eq_true, decide_eq_true_eq] at hm ⊢
    exact ⟨⟨⟨h.trans hm.1.1.1, hm.1.1.2⟩, hm.1.2⟩, hm.2⟩

theorem wfFrom_insert {p : Params} {m : Memory} {lo a : Nat} {v : Byte} (hlo : lo ≤ a)
    (ha : a < Config.memSize) (hv : v ≠ resetByte p a) (hm : Memory.wfFrom p lo m = true) :
    Memory.wfFrom p lo (Memory.insert m a v) = true := by
  induction m generalizing lo with
  | nil => simp [Memory.insert, Memory.wfFrom, hlo, ha, hv]
  | cons c m ih =>
    obtain ⟨b, w⟩ := c
    simp only [Memory.wfFrom, Bool.and_eq_true, decide_eq_true_eq] at hm
    unfold Memory.insert
    split_ifs with h1 h2
    · simp only [Memory.wfFrom, Bool.and_eq_true, decide_eq_true_eq]
      exact ⟨⟨⟨hlo, ha⟩, hv⟩, ⟨⟨h1, hm.1.1.2⟩, hm.1.2⟩, hm.2⟩
    · subst h2
      simp only [Memory.wfFrom, Bool.and_eq_true, decide_eq_true_eq]
      exact ⟨⟨⟨hlo, ha⟩, hv⟩, hm.2⟩
    · simp only [Memory.wfFrom, Bool.and_eq_true, decide_eq_true_eq]
      exact ⟨hm.1, ih (by omega) hm.2⟩

theorem wfFrom_erase {p : Params} {m : Memory} {lo : Nat} (a : Nat) (hm : Memory.wfFrom p lo m = true) :
    Memory.wfFrom p lo (Memory.erase m a) = true := by
  induction m generalizing lo with
  | nil => rfl
  | cons c m ih =>
    obtain ⟨b, w⟩ := c
    simp only [Memory.wfFrom, Bool.and_eq_true, decide_eq_true_eq] at hm
    have hrest := ih hm.2
    unfold Memory.erase at hrest ⊢
    by_cases hb : b = a
    · have hf : (b != a) = false := by simpa using hb
      simp only [List.filter, hf]
      exact wfFrom_mono (by omega) hrest
    · have hf : (b != a) = true := by simpa using hb
      simp only [List.filter, hf, Memory.wfFrom, Bool.and_eq_true, decide_eq_true_eq]
      exact ⟨hm.1, hrest⟩

/-- A write inside memory keeps the canonical form. -/
theorem wf_write {p : Params} {m : Memory} {a : Nat} {v : Byte} (ha : a < Config.memSize)
    (hm : Memory.wf p m = true) : Memory.wf p (Memory.write p m a v) = true := by
  unfold Memory.wf Memory.write at *
  split_ifs with h
  · exact wfFrom_erase a hm
  · exact wfFrom_insert (Nat.zero_le a) ha h hm

theorem reset_mem_wf : Memory.wf State.reset.params State.reset.mem = true := rfl

/-! ### The state's bytes -/

@[simp] theorem writeByte_readByte (s : State) (a c : Nat) (v : Byte) :
    (s.writeByte a v).readByte c = if c = a then v else s.readByte c :=
  read_write s.params s.mem a c v

/-- A block store changes memory and nothing else. -/
theorem storeBytes_eq (s : State) (a : Nat) (bs : List Byte) :
    s.storeBytes a bs = { s with mem := (s.storeBytes a bs).mem } := by
  induction bs generalizing s a with
  | nil => rfl
  | cons b bs ih => exact ih (s.writeByte a b) (a + 1)

@[simp] theorem storeBytes_params (s : State) (a : Nat) (bs : List Byte) : (s.storeBytes a bs).params = s.params := by
  rw [storeBytes_eq]
@[simp] theorem storeBytes_v (s : State) (a : Nat) (bs : List Byte) : (s.storeBytes a bs).v = s.v := by
  rw [storeBytes_eq]
@[simp] theorem storeBytes_i (s : State) (a : Nat) (bs : List Byte) : (s.storeBytes a bs).i = s.i := by
  rw [storeBytes_eq]
@[simp] theorem storeBytes_pc (s : State) (a : Nat) (bs : List Byte) : (s.storeBytes a bs).pc = s.pc := by
  rw [storeBytes_eq]
@[simp] theorem storeBytes_stack (s : State) (a : Nat) (bs : List Byte) : (s.storeBytes a bs).stack = s.stack := by
  rw [storeBytes_eq]
@[simp] theorem storeBytes_sp (s : State) (a : Nat) (bs : List Byte) : (s.storeBytes a bs).sp = s.sp := by
  rw [storeBytes_eq]
@[simp] theorem storeBytes_dt (s : State) (a : Nat) (bs : List Byte) : (s.storeBytes a bs).dt = s.dt := by
  rw [storeBytes_eq]
@[simp] theorem storeBytes_st (s : State) (a : Nat) (bs : List Byte) : (s.storeBytes a bs).st = s.st := by
  rw [storeBytes_eq]
@[simp] theorem storeBytes_fb (s : State) (a : Nat) (bs : List Byte) : (s.storeBytes a bs).fb = s.fb := by
  rw [storeBytes_eq]
@[simp] theorem storeBytes_key (s : State) (a : Nat) (bs : List Byte) : (s.storeBytes a bs).key = s.key := by
  rw [storeBytes_eq]
@[simp] theorem storeBytes_dirty (s : State) (a : Nat) (bs : List Byte) : (s.storeBytes a bs).dirty = s.dirty := by
  rw [storeBytes_eq]
@[simp] theorem storeBytes_execState (s : State) (a : Nat) (bs : List Byte) : (s.storeBytes a bs).execState = s.execState := by
  rw [storeBytes_eq]
@[simp] theorem storeBytes_rndCount (s : State) (a : Nat) (bs : List Byte) : (s.storeBytes a bs).rndCount = s.rndCount := by
  rw [storeBytes_eq]
@[simp] theorem storeBytes_getV (s : State) (a : Nat) (bs : List Byte) (y : Nibble) :
    (s.storeBytes a bs).getV y = s.getV y := by
  rw [storeBytes_eq]
  rfl

/-- A byte after a block store: the byte stored there, or what it was. -/
theorem storeBytes_readByte (s : State) (a c : Nat) (bs : List Byte) :
    (s.storeBytes a bs).readByte c =
      if a ≤ c then (bs[c - a]?).getD (s.readByte c) else s.readByte c := by
  induction bs generalizing s a with
  | nil => simp [State.storeBytes]
  | cons b bs ih =>
    simp only [State.storeBytes, ih, writeByte_readByte]
    rcases Nat.lt_trichotomy c a with h | h | h
    · simp [show ¬ a + 1 ≤ c by omega, show ¬ a ≤ c by omega, show c ≠ a by omega]
    · subst h
      simp
    · have e : c - a = c - (a + 1) + 1 := by omega
      simp [show a + 1 ≤ c by omega, show a ≤ c by omega, show c ≠ a by omega, e]

/-- A block store inside memory keeps the canonical form. -/
theorem storeBytes_wf {s : State} {a : Nat} {bs : List Byte} (h : a + bs.length ≤ Config.memSize)
    (hm : Memory.wf s.params s.mem = true) :
    Memory.wf (s.storeBytes a bs).params (s.storeBytes a bs).mem = true := by
  induction bs generalizing s a with
  | nil => exact hm
  | cons b bs ih =>
    simp only [List.length_cons, Config.memSize] at h
    exact ih (s := s.writeByte a b) (by simp only [Config.memSize]; omega)
      (wf_write (by simp only [Config.memSize]; omega) hm)

@[simp] theorem readBytes_length (s : State) (a k : Nat) : (s.readBytes a k).length = k := by
  induction k generalizing a with
  | zero => rfl
  | succ k ih => simp [State.readBytes, ih]

/-- The bytes of a block read. -/
theorem readBytes_getElem? (s : State) (a k r : Nat) :
    (s.readBytes a k)[r]? = if r < k then some (s.readByte (a + r)) else none := by
  induction k generalizing a r with
  | zero => simp [State.readBytes]
  | succ k ih =>
    cases r with
    | zero => simp [State.readBytes]
    | succ r => simp [State.readBytes, ih, Nat.add_assoc, Nat.add_comm 1 r]

/-- The values FX55 stores: V0 to VX, one byte each (R175). -/
theorem regsUpTo_getElem? (s : State) (x : Nibble) (j : Nat) :
    (s.regsUpTo x)[j]? = if j ≤ x.toNat then some (s.getV (BitVec.ofNat 4 j)) else none := by
  have hx := x.isLt
  by_cases h : j ≤ x.toNat
  · have hj : j < 16 := by omega
    have hm : (BitVec.ofNat 4 j).toNat = j := by simp [Nat.mod_eq_of_lt hj]
    simp [State.regsUpTo, State.getV, h, hj, Nat.lt_succ_of_le h, Nat.mod_eq_of_lt hj]
  · simp [State.regsUpTo, h]

theorem regsUpTo_getElem (s : State) (x : Nibble) (j : Nat) (h : j < (s.regsUpTo x).length) :
    (s.regsUpTo x)[j] = s.getV (BitVec.ofNat 4 j) := by
  have e := regsUpTo_getElem? s x j
  rw [List.getElem?_eq_getElem h] at e
  split_ifs at e
  exact Option.some.inj e

@[simp] theorem regsUpTo_length (s : State) (x : Nibble) : (s.regsUpTo x).length = x.toNat + 1 := by
  have hx := x.isLt
  simp [State.regsUpTo]
  omega

end Sys2Proof.Machine
end

