-- ==== Sys2Proof/Laws/Checks.lean ====
section
/-! SUPPORT. What the access checks, the fetch check and the checked ending answer. -/
namespace Sys2Proof.Machine

/-- A block check passes exactly when every address passes. -/
theorem checkBlock_eq_none (check : Nat → Option Fault) (a k : Nat) :
    checkBlock check a k = none ↔ ∀ j, j < k → check (a + j) = none := by
  induction k generalizing a with
  | zero => simp [checkBlock]
  | succ k ih =>
    unfold checkBlock
    cases hc : check a with
    | some f =>
      simp only [reduceCtorEq, false_iff, not_forall]
      exact ⟨0, by omega, by simp [hc]⟩
    | none =>
      simp only [ih]
      constructor
      · intro h j hj
        cases j with
        | zero => simpa using hc
        | succ j => simpa [Nat.add_assoc, Nat.add_comm 1 j] using h j (by omega)
      · intro h j hj
        simpa [Nat.add_assoc, Nat.add_comm 1 j] using h (j + 1) (by omega)

/-- A block check fails with the fault and the address of the first failing one (R174). -/
theorem checkBlock_eq_some {check : Nat → Option Fault} {a k : Nat} {f : Fault} {w : Word} :
    checkBlock check a k = some (f, w) ↔
      ∃ j, j < k ∧ check (a + j) = some f ∧ w = BitVec.ofNat 16 (a + j) ∧
        ∀ l, l < j → check (a + l) = none := by
  induction k generalizing a with
  | zero => simp [checkBlock]
  | succ k ih =>
    unfold checkBlock
    cases hc : check a with
    | some g =>
      simp only [Option.some.injEq, Prod.mk.injEq]
      constructor
      · rintro ⟨rfl, rfl⟩
        exact ⟨0, by omega, by simpa using hc, rfl, by omega⟩
      · rintro ⟨j, -, h1, h2, h3⟩
        cases j with
        | zero => exact ⟨by simpa [hc] using h1, h2.symm⟩
        | succ j => simpa [hc] using h3 0 (by omega)
    | none =>
      simp only [ih]
      constructor
      · rintro ⟨j, h0, h1, h2, h3⟩
        refine ⟨j + 1, by omega, by simpa [Nat.add_assoc, Nat.add_comm 1 j] using h1,
          by simpa [Nat.add_assoc, Nat.add_comm 1 j] using h2, fun l hl => ?_⟩
        cases l with
        | zero => simpa using hc
        | succ l => simpa [Nat.add_assoc, Nat.add_comm 1 l] using h3 l (by omega)
      · rintro ⟨j, h0, h1, h2, h3⟩
        cases j with
        | zero => simp [hc] at h1
        | succ j =>
          exact ⟨j, by omega, by simpa [Nat.add_assoc, Nat.add_comm 1 j] using h1,
            by simpa [Nat.add_assoc, Nat.add_comm 1 j] using h2,
            fun l hl => by simpa [Nat.add_assoc, Nat.add_comm 1 l] using h3 (l + 1) (by omega)⟩

theorem readFault_eq_none (a : Nat) : readFault a = none ↔ a ≤ 0xFFF := by
  unfold readFault
  split <;> simp <;> omega

theorem writeFault_eq_none (p : Params) (a : Nat) :
    writeFault p a = none ↔ a ≤ 0xFFF ∧ ¬(p.fontWritePolicy = .fault ∧ inFontRegion p a = true) := by
  unfold writeFault
  split_ifs with h1 h2
  · simp; omega
  · simp [h2]
  · simp only [h2, not_false_eq_true, and_true, true_iff]
    omega

/-- Reads pass exactly when the whole block lies in memory (R52). -/
theorem checkReads_eq_none (a k : Nat) : checkReads a k = none ↔ k = 0 ∨ a + k ≤ 0x1000 := by
  unfold checkReads
  simp only [checkBlock_eq_none, readFault_eq_none]
  constructor
  · intro h
    rcases Nat.eq_zero_or_pos k with hk | hk
    · exact .inl hk
    · have := h (k - 1) (by omega)
      omega
  · rintro (rfl | h) j hj <;> omega

/-- A failing read check raises BOUNDS_ERROR with the lowest offending address `max(a, 0x1000)`, which lies in the
block (R240). -/
theorem checkReads_eq_some {a k : Nat} {f : Fault} {w : Word} (h : checkReads a k = some (f, w)) :
    f = .boundsError ∧ w = BitVec.ofNat 16 (max a 0x1000) ∧ max a 0x1000 < a + k := by
  obtain ⟨j, hj, h1, rfl, h3⟩ := checkBlock_eq_some.mp h
  have hlow : ∀ l, l < j → a + l ≤ 0xFFF := fun l hl => (readFault_eq_none _).mp (h3 l hl)
  unfold readFault at h1
  split_ifs at h1 with hb
  have hmax : a + j = max a 0x1000 := by
    rcases Nat.eq_zero_or_pos j with rfl | hp
    · omega
    · have := hlow (j - 1) (by omega)
      omega
  exact ⟨by simpa using h1.symm, by rw [hmax], by omega⟩

/-- Writes pass exactly when every byte lies in memory and off a protected font region (R52, R54). -/
theorem checkWrites_eq_none (p : Params) (a k : Nat) :
    checkWrites p a k = none ↔
      ∀ j, j < k → a + j ≤ 0xFFF ∧ ¬(p.fontWritePolicy = .fault ∧ inFontRegion p (a + j) = true) := by
  unfold checkWrites
  simp only [checkBlock_eq_none, writeFault_eq_none]

/-- A failing write check raises at the lowest offending address of the block: past the end of memory, or in the
protected font region (R54, R174, R240). -/
theorem checkWrites_eq_some {p : Params} {a k : Nat} {f : Fault} {w : Word}
    (h : checkWrites p a k = some (f, w)) :
    (f = .boundsError ∧ w = BitVec.ofNat 16 (max a 0x1000) ∧ max a 0x1000 < a + k) ∨
    (f = .fontWriteFault ∧ p.fontWritePolicy = .fault ∧ ∃ b, w = BitVec.ofNat 16 b ∧ a ≤ b ∧ b < a + k ∧
      b ≤ 0xFFF ∧ inFontRegion p b = true ∧ ∀ c, a ≤ c → c < b → inFontRegion p c = false) := by
  obtain ⟨j, hj, h1, rfl, h3⟩ := checkBlock_eq_some.mp h
  have hlow : ∀ c, a ≤ c → c < a + j → c ≤ 0xFFF ∧ ¬(p.fontWritePolicy = .fault ∧ inFontRegion p c = true) :=
    fun c hc hj' => (writeFault_eq_none _ _).mp (by simpa [Nat.add_sub_cancel' hc] using h3 (c - a) (by omega))
  unfold writeFault at h1
  split_ifs at h1 with hb hf
  · have hmax : a + j = max a 0x1000 := by
      rcases Nat.eq_zero_or_pos j with rfl | hp
      · omega
      · have := (hlow (a + j - 1) (by omega) (by omega)).1
        omega
    exact .inl ⟨by simpa using h1.symm, by rw [hmax], by omega⟩
  · exact .inr ⟨by simpa using h1.symm, hf.1, a + j, rfl, by omega, by omega, by omega, hf.2,
      fun c hc hj' => by simpa [hf.1] using (hlow c hc hj').2⟩

/-- What a checked instruction can answer: a raise of the failing check, or its own effect. -/
theorem checked_cases {s ok t : State} {check : Option (Fault × Word)} (h : s.checked check ok = .next t) :
    (∃ f w, check = some (f, w) ∧ t = s.raise f w) ∨ (check = none ∧ t = ok) := by
  unfold State.checked at h
  split at h
  · rename_i f w
    exact .inl ⟨f, w, rfl, by simpa using h.symm⟩
  · exact .inr ⟨rfl, by simpa using h.symm⟩

/-- The fetch check passes exactly inside memory, and under `invariant` at an even address from 0x200 (R102). -/
theorem fetchCheck_eq_none (p : Params) (pc : Word) :
    fetchCheck p pc = none ↔
      pc.toNat ≤ 0xFFE ∧ (p.pcCheck = .invariant → pc.toNat % 2 = 0 ∧ 0x200 ≤ pc.toNat) := by
  unfold fetchCheck
  cases hp : p.pcCheck
  · simp only [true_and]
    split_ifs with h1 h2 h3
    · simp only [false_iff]
      intro h
      have := h.2 trivial
      omega
    · omega
    · omega
    · simp only [true_iff]
      exact ⟨by omega, fun _ => ⟨by omega, by omega⟩⟩
  · simp only [reduceCtorEq, false_and, if_false, false_implies, and_true]
    split_ifs with h2 h3
    · simp; omega
    · simp; omega
    · simp; omega

/-- What a failing fetch check raises (R102). -/
theorem fetchCheck_eq_some {p : Params} {pc : Word} {f : Fault} {w : Word}
    (h : fetchCheck p pc = some (f, w)) :
    (f = .pcFault ∧ w = pc ∧ p.pcCheck = .invariant ∧
        (pc.toNat % 2 ≠ 0 ∨ pc.toNat < 0x200 ∨ pc.toNat > 0xFFE)) ∨
      (f = .boundsError ∧ p.pcCheck = .boundsOnly ∧ pc.toNat > 0xFFE ∧
        w = BitVec.ofNat 16 (max pc.toNat 0x1000)) := by
  unfold fetchCheck at h
  cases hp : p.pcCheck
  · simp only [hp, true_and] at h
    split_ifs at h with h1 h2 h3
    · simp only [Option.some.injEq, Prod.mk.injEq] at h
      exact .inl ⟨h.1.symm, h.2.symm, rfl, h1⟩
    · omega
    · omega
  · simp only [hp, reduceCtorEq, false_and, if_false] at h
    split_ifs at h with h2 h3
    · simp only [Option.some.injEq, Prod.mk.injEq] at h
      refine .inr ⟨h.1.symm, rfl, by omega, ?_⟩
      rw [← h.2]
      congr 1
      omega
    · simp only [Option.some.injEq, Prod.mk.injEq] at h
      refine .inr ⟨h.1.symm, rfl, by omega, ?_⟩
      rw [← h.2]
      congr 1
      omega

end Sys2Proof.Machine
end

