-- ==== Sys2Proof/Laws/Stack.lean ====
section
/-! SUPPORT. What a push and a pop answer. -/
namespace Sys2Proof.Machine

/-- A push on a stack with room (R122). -/
theorem push_of_lt {s : State} (w : Word) (h : s.sp.val < 16) :
    s.push w = some { s with stack := s.stack.set s.sp.val w, sp := ⟨s.sp.val + 1, by omega⟩ } := by
  simp [State.push, h]

/-- A push fails exactly on a full stack (R28). -/
theorem push_eq_none (s : State) (w : Word) : s.push w = none ↔ s.sp.val = 16 := by
  have := s.sp.isLt
  unfold State.push
  split_ifs <;> simp <;> omega

/-- A pop from a stack with an entry; the slot is kept (R27, R120). -/
theorem pop_of_pos {s : State} (h : 0 < s.sp.val) :
    s.pop = some (s.stack[s.sp.val - 1]'(by omega), { s with sp := ⟨s.sp.val - 1, by omega⟩ }) := by
  simp [State.pop, h]

/-- A pop fails exactly on an empty stack (R28). -/
theorem pop_eq_none (s : State) : s.pop = none ↔ s.sp.val = 0 := by
  unfold State.pop
  split_ifs <;> simp <;> omega

/-- What a successful push is (R122). -/
theorem push_eq_some {s t : State} {w : Word} (h : s.push w = some t) :
    ∃ _ : s.sp.val < 16,
      t = { s with stack := s.stack.set s.sp.val w, sp := ⟨s.sp.val + 1, by omega⟩ } := by
  unfold State.push at h
  split_ifs at h with hp
  exact ⟨hp, (Option.some.inj h).symm⟩

/-- What a successful pop is (R120). -/
theorem pop_eq_some {s t : State} {w : Word} (h : s.pop = some (w, t)) :
    ∃ _ : 0 < s.sp.val,
      w = s.stack[s.sp.val - 1]'(by omega) ∧ t = { s with sp := ⟨s.sp.val - 1, by omega⟩ } := by
  unfold State.pop at h
  split_ifs at h with hp
  have h := Option.some.inj h
  exact ⟨hp, (congrArg Prod.fst h).symm, (congrArg Prod.snd h).symm⟩

end Sys2Proof.Machine
end

