-- ==== Sys2Proof/Laws/Cycle.lean ====
section
/-! SUPPORT. Inversions: what a step can do, and what an instruction can do to memory. -/
namespace Sys2Proof.Machine

/-- Everything a step can do (R100, R101): nothing when suspended; a fatal error of the fetch check or the
decoder; or the effect of the decoded instruction. -/
theorem step_cases {s t : State} (h : step s = .next t) :
    (s.execState ≠ .executing ∧ t = s) ∨
    (s.execState = .executing ∧ ∃ f w, t = s.raise f w ∧
      (fetchCheck s.params s.pc = some (f, w) ∨
        (fetchCheck s.params s.pc = none ∧ decodeWord s.fetchWord = none ∧
          f = .decodeError ∧ w = s.fetchWord))) ∨
    (s.execState = .executing ∧ fetchCheck s.params s.pc = none ∧
      ∃ i, decodeWord s.fetchWord = some i ∧ exec i s = .next t) := by
  unfold step State.cycle at h
  cases he : s.execState with
  | waitingForKey x =>
    simp only [he, Host.Outcome.next.injEq] at h
    exact .inl ⟨by simp, h.symm⟩
  | halted f w =>
    simp only [he, Host.Outcome.next.injEq] at h
    exact .inl ⟨by simp, h.symm⟩
  | executing =>
    simp only [he, State.fetchDecode] at h
    cases hc : fetchCheck s.params s.pc with
    | some q =>
      obtain ⟨f, w⟩ := q
      simp only [hc, Host.Outcome.next.injEq] at h
      exact .inr (.inl ⟨rfl, f, w, h.symm, .inl rfl⟩)
    | none =>
      cases hd : decodeWord s.fetchWord with
      | none =>
        simp only [hc, hd, Host.Outcome.next.injEq] at h
        exact .inr (.inl ⟨rfl, _, _, h.symm, .inr ⟨rfl, rfl, rfl, rfl⟩⟩)
      | some i =>
        simp only [hc, hd] at h
        exact .inr (.inr ⟨rfl, rfl, i, rfl, h⟩)

/-- What an instruction can do to memory: nothing, or a checked block store at `I` by FX33 or FX55 (R56). -/
theorem exec_mem {i : Instr} {s t : State} (h : exec i s = .next t) :
    t.params = s.params ∧
      (t.mem = s.mem ∨
        ∃ bs, i.mnemonic ∈ [Mnemonic.LD_B_VX, .ST_REGS] ∧
          checkWrites s.params s.baseAddr bs.length = none ∧ t.mem = (s.storeBytes s.baseAddr bs).mem) := by
  cases i
  case ret =>
    simp only [exec, execRet] at h
    split at h
    · injection h with h
      subst h
      simp
    · rename_i hp
      injection h with h
      subst h
      obtain ⟨_, _, rfl⟩ := pop_eq_some hp
      simp
  case call =>
    simp only [exec, execCall] at h
    split at h
    · injection h with h
      subst h
      simp
    · rename_i hp
      injection h with h
      subst h
      obtain ⟨_, rfl⟩ := push_eq_some hp
      simp
  case skp =>
    simp only [exec, execSkp] at h
    split at h <;> (injection h with h; subst h; simp)
  case sknp =>
    simp only [exec, execSknp] at h
    split at h <;> (injection h with h; subst h; simp)
  case drw =>
    rcases checked_cases h with ⟨_, _, _, rfl⟩ | ⟨_, rfl⟩ <;> simp
  case ldRegs =>
    rcases checked_cases h with ⟨_, _, _, rfl⟩ | ⟨_, rfl⟩ <;> simp
  case ldBVx =>
    rcases checked_cases h with ⟨_, _, _, rfl⟩ | ⟨hc, rfl⟩
    · simp
    · exact ⟨by simp, .inr ⟨_, by simp [Instr.mnemonic], by simpa [decimalDigits] using hc, rfl⟩⟩
  case stRegs =>
    rcases checked_cases h with ⟨_, _, _, rfl⟩ | ⟨hc, rfl⟩
    · simp
    · exact ⟨by simp, .inr ⟨_, by simp [Instr.mnemonic], by simpa using hc, rfl⟩⟩
  all_goals
    simp only [exec] at h
    injection h with h
    subst h
    simp [State.rndWith]

/-- A store whose check passed keeps the canonical form of memory. -/
theorem checkedStore_wf {s : State} {bs : List Byte}
    (hc : checkWrites s.params s.baseAddr bs.length = none) (hm : Memory.wf s.params s.mem = true) :
    Memory.wf s.params (s.storeBytes s.baseAddr bs).mem = true := by
  rcases Nat.eq_zero_or_pos bs.length with hb | hb
  · rw [List.length_eq_zero_iff.mp hb]
    exact hm
  · have hlast := ((checkWrites_eq_none _ _ _).mp hc (bs.length - 1) (by omega)).1
    simpa using storeBytes_wf (s := s) (a := s.baseAddr) (bs := bs)
      (by simp only [Config.memSize]; omega) hm

end Sys2Proof.Machine
end

