-- ==== Sys2Proof/Laws/Display.lean ====
section
/-! SUPPORT. Pixels, and what drawing a sprite does to them. -/
namespace Sys2Proof.Machine

/-- Whether the sprite of these rows, with its top left corner at (x0, y0), has its bit for screen position
(X, Y) set (spec/44_display.md R192, R193). -/
def spriteCovers (x0 y0 : Nat) (rows : List Byte) (X Y : Nat) : Bool :=
  decide (x0 ≤ X ∧ X < x0 + 8 ∧ y0 ≤ Y) &&
    match rows[Y - y0]? with
    | some row => spriteBit row (X - x0)
    | none => false

theorem pixel_off (f : Frame) {x y : Nat} (h : ¬(x < 64 ∧ y < 32)) : f.pixel x y = false := by
  simp [Frame.pixel, h]

/-- A pixel after a pixel write. -/
theorem put_pixel (f : Frame) (x y X Y : Nat) (b : Bool) :
    (f.put x y b).pixel X Y = if X = x ∧ Y = y ∧ x < 64 ∧ y < 32 then b else f.pixel X Y := by
  unfold Frame.put
  by_cases hxy : x < 64 ∧ y < 32
  · simp only [hxy, and_self, dif_pos, and_true]
    unfold Frame.pixel
    by_cases hXY : X < 64 ∧ Y < 32
    · simp only [hXY, and_self, dif_pos, Vector.getElem_set]
      by_cases hx : x = X
      · subst hx
        simp only [if_true, Vector.getElem_set, true_and]
        by_cases hy : y = Y
        · simp [hy]
        · simp [hy, Ne.symm hy]
      · simp [hx, Ne.symm hx]
    · have hne : ¬(X = x ∧ Y = y) := by
        rintro ⟨rfl, rfl⟩
        exact hXY hxy
      simp [hXY, hne]
  · simp [hxy]

/-- Frames with the same pixels are the same. -/
theorem frame_ext {f g : Frame} (h : ∀ X Y, X < 64 → Y < 32 → f.pixel X Y = g.pixel X Y) : f = g := by
  refine Vector.ext fun X hX => Vector.ext fun Y hY => ?_
  simpa [Frame.pixel, hX, hY] using h X Y hX hY

@[simp] theorem blank_pixel (X Y : Nat) : Frame.blank.pixel X Y = false := by
  unfold Frame.pixel Frame.blank
  split <;> simp

/-- Whether a sprite row, its columns below `k` only, has its bit for (X, Y) set. -/
def rowCovers (row : Byte) (x0 y k X Y : Nat) : Bool :=
  decide (Y = y ∧ x0 ≤ X ∧ X < x0 + k) && spriteBit row (X - x0)

theorem rowCovers_succ (row : Byte) (x0 y c X Y : Nat) :
    rowCovers row x0 y (c + 1) X Y =
      (rowCovers row x0 y c X Y || (decide (X = x0 + c ∧ Y = y) && spriteBit row c)) := by
  unfold rowCovers
  by_cases h : X = x0 + c
  · subst h
    by_cases hy : Y = y <;> simp [hy]
  · have e : (Y = y ∧ x0 ≤ X ∧ X < x0 + (c + 1)) ↔ (Y = y ∧ x0 ≤ X ∧ X < x0 + c) := by omega
    simp [h, e]

/-- The columns of one row: on-screen pixels under a set bit toggle, and a set one among them is a collision. -/
theorem drawColumns_spec (row : Byte) (x0 y k : Nat) (acc : Frame × Bool) :
    (∀ X Y, X < 64 → Y < 32 → (drawColumns row x0 y k acc).1.pixel X Y =
        (acc.1.pixel X Y ^^ rowCovers row x0 y k X Y)) ∧
      ((drawColumns row x0 y k acc).2 = true ↔
        acc.2 = true ∨ ∃ X Y, X < 64 ∧ Y < 32 ∧ rowCovers row x0 y k X Y = true ∧ acc.1.pixel X Y = true) := by
  induction k with
  | zero =>
    have h0 : ∀ X Y, rowCovers row x0 y 0 X Y = false := fun X Y => by
      unfold rowCovers
      simp only [Bool.and_eq_false_iff, decide_eq_false_iff_not]
      exact .inl (by omega)
    simp [drawColumns, h0]
  | succ c ih =>
    obtain ⟨ihp, ihc⟩ := ih
    set m := drawColumns row x0 y c acc with hm
    have hnew : rowCovers row x0 y c (x0 + c) y = false := by
      unfold rowCovers
      simp
    by_cases hb : spriteBit row c = true
    · by_cases hs : x0 + c < 64 ∧ y < 32
      · have hd : drawColumns row x0 y (c + 1) acc =
            (m.1.put (x0 + c) y (!m.1.pixel (x0 + c) y), m.2 || m.1.pixel (x0 + c) y) := by
          simp [drawColumns, ← hm, hb, drawPixel, hs]
        have hold : m.1.pixel (x0 + c) y = acc.1.pixel (x0 + c) y := by
          rw [ihp _ _ hs.1 hs.2, hnew, Bool.xor_false]
        rw [hd]
        constructor
        · intro X Y hX hY
          simp only [put_pixel, rowCovers_succ, hb, Bool.and_true]
          by_cases hXY : X = x0 + c ∧ Y = y
          · obtain ⟨rfl, rfl⟩ := hXY
            simp [hs, hold, hnew]
          · have hne : ¬(X = x0 + c ∧ Y = y ∧ x0 + c < 64 ∧ y < 32) := fun h => hXY ⟨h.1, h.2.1⟩
            simp [hne, hXY, ihp X Y hX hY]
        · simp only [Bool.or_eq_true, ihc, hold, rowCovers_succ, hb, Bool.and_true, decide_eq_true_eq]
          constructor
          · rintro ((h | ⟨X, Y, h1, h2, h3, h4⟩) | h)
            · exact .inl h
            · exact .inr ⟨X, Y, h1, h2, .inl h3, h4⟩
            · exact .inr ⟨x0 + c, y, hs.1, hs.2, .inr ⟨rfl, rfl⟩, h⟩
          · rintro (h | ⟨X, Y, h1, h2, h3 | ⟨rfl, rfl⟩, h4⟩)
            · exact .inl (.inl h)
            · exact .inl (.inr ⟨X, Y, h1, h2, h3, h4⟩)
            · exact .inr h4
      · have hd : drawColumns row x0 y (c + 1) acc = m := by
          simp [drawColumns, ← hm, hb, drawPixel, hs]
        have hsame : ∀ X Y, X < 64 → Y < 32 → rowCovers row x0 y (c + 1) X Y = rowCovers row x0 y c X Y := by
          intro X Y hX hY
          have : ¬(X = x0 + c ∧ Y = y) := by
            rintro ⟨rfl, rfl⟩
            exact hs ⟨hX, hY⟩
          simp [rowCovers_succ, this]
        rw [hd]
        constructor
        · intro X Y hX hY
          rw [hsame X Y hX hY, ihp X Y hX hY]
        · rw [ihc]
          constructor
          · rintro (h | ⟨X, Y, h1, h2, h3, h4⟩)
            · exact .inl h
            · exact .inr ⟨X, Y, h1, h2, by rw [hsame X Y h1 h2]; exact h3, h4⟩
          · rintro (h | ⟨X, Y, h1, h2, h3, h4⟩)
            · exact .inl h
            · exact .inr ⟨X, Y, h1, h2, by rw [hsame X Y h1 h2] at h3; exact h3, h4⟩
    · have hd : drawColumns row x0 y (c + 1) acc = m := by
        simp [drawColumns, ← hm, hb]
      rw [hd]
      simpa [rowCovers_succ, hb] using And.intro ihp ihc

theorem spriteCovers_cons (x0 y : Nat) (row : Byte) (rows : List Byte) (X Y : Nat) :
    spriteCovers x0 y (row :: rows) X Y =
      (rowCovers row x0 y 8 X Y || spriteCovers x0 (y + 1) rows X Y) := by
  unfold spriteCovers rowCovers
  rcases Nat.lt_trichotomy Y y with h | h | h
  · simp [show ¬ y ≤ Y by omega, show ¬ y + 1 ≤ Y by omega, show Y ≠ y by omega]
  · subst h
    simp
  · have e : Y - y = Y - (y + 1) + 1 := by omega
    simp [e, show y ≤ Y by omega, show y + 1 ≤ Y by omega, show Y ≠ y by omega]

theorem spriteCovers_above (x0 y : Nat) (rows : List Byte) (X Y : Nat) (h : Y < y) :
    spriteCovers x0 y rows X Y = false := by
  unfold spriteCovers
  simp [show ¬ y ≤ Y by omega]

/-- Drawing a sprite: every on-screen pixel is XORed with the sprite's bit for it, and the collision bit says
whether a set pixel was among those toggled (R192, R194). -/
theorem drawRows_spec (x0 y : Nat) (rows : List Byte) (acc : Frame × Bool) :
    (∀ X Y, X < 64 → Y < 32 → (drawRows x0 y rows acc).1.pixel X Y =
        (acc.1.pixel X Y ^^ spriteCovers x0 y rows X Y)) ∧
      ((drawRows x0 y rows acc).2 = true ↔
        acc.2 = true ∨
          ∃ X Y, X < 64 ∧ Y < 32 ∧ spriteCovers x0 y rows X Y = true ∧ acc.1.pixel X Y = true) := by
  induction rows generalizing y acc with
  | nil => simp [drawRows, spriteCovers]
  | cons row rows ih =>
    obtain ⟨hp, hc⟩ := drawColumns_spec row x0 y 8 acc
    obtain ⟨ip, ic⟩ := ih (y + 1) (drawColumns row x0 y 8 acc)
    have hdis : ∀ X Y, rowCovers row x0 y 8 X Y = true → spriteCovers x0 (y + 1) rows X Y = false := by
      intro X Y h
      apply spriteCovers_above
      simp only [rowCovers, Bool.and_eq_true, decide_eq_true_eq] at h
      omega
    constructor
    · intro X Y hX hY
      simp only [drawRows, ip X Y hX hY, hp X Y hX hY, spriteCovers_cons]
      cases hr : rowCovers row x0 y 8 X Y
      · simp
      · simp [hdis X Y hr]
    · simp only [drawRows, ic, hc, spriteCovers_cons, Bool.or_eq_true]
      constructor
      · rintro ((h | ⟨X, Y, h1, h2, h3, h4⟩) | ⟨X, Y, h1, h2, h3, h4⟩)
        · exact .inl h
        · exact .inr ⟨X, Y, h1, h2, .inl h3, h4⟩
        · have hr : rowCovers row x0 y 8 X Y = false := by
            cases hr : rowCovers row x0 y 8 X Y
            · rfl
            · simp [hdis X Y hr] at h3
          rw [hp X Y h1 h2, hr, Bool.xor_false] at h4
          exact .inr ⟨X, Y, h1, h2, .inr h3, h4⟩
      · rintro (h | ⟨X, Y, h1, h2, h3 | h3, h4⟩)
        · exact .inl (.inl h)
        · exact .inl (.inr ⟨X, Y, h1, h2, h3, h4⟩)
        · have hr : rowCovers row x0 y 8 X Y = false := by
            cases hr : rowCovers row x0 y 8 X Y
            · rfl
            · simp [hdis X Y hr] at h3
          exact .inr ⟨X, Y, h1, h2, h3, by rw [hp X Y h1 h2, hr, Bool.xor_false]; exact h4⟩

end Sys2Proof.Machine
end

