-- ==== Sys2Proof/Laws/Encoding.lean ====
section
/-! SUPPORT. The bits of a word put together from its fields, one lemma per format (spec/30_encoding.md R72). -/
namespace Sys2Proof

theorem getElem_word_4_12 (a : Nibble) (b : Addr12) (k : Nat) (h : k < 16) :
    (a ++ b : Word)[k] = if hk : k < 12 then b[k] else a[k - 12] :=
  BitVec.getElem_append h

theorem getElem_word_8_8 (a : Byte) (b : Byte) (k : Nat) (h : k < 16) :
    (a ++ b : Word)[k] = if hk : k < 8 then b[k] else a[k - 8] :=
  BitVec.getElem_append h

theorem getElem_byte_4_4 (a b : Nibble) (k : Nat) (h : k < 8) :
    (a ++ b : Byte)[k] = if hk : k < 4 then b[k] else a[k - 4] :=
  BitVec.getElem_append h

theorem getElem_addr_8_4 (a : Byte) (b : Nibble) (k : Nat) (h : k < 12) :
    (a ++ b : Addr12)[k] = if hk : k < 4 then b[k] else a[k - 4] :=
  BitVec.getElem_append h

theorem getElem_word_12_4 (a : Addr12) (b : Nibble) (k : Nat) (h : k < 16) :
    (a ++ b : Word)[k] = if hk : k < 4 then b[k] else a[k - 4] :=
  BitVec.getElem_append h

/-- A field read bit by bit from its word. -/
theorem getElem_field (w : Word) (s n k : Nat) (h : k < n) (hs : s + n ≤ 16) :
    (w.extractLsb' s n)[k] = w[s + k] := by
  rw [BitVec.getElem_extractLsb', BitVec.getLsbD_eq_getElem]

/-! ### The fields of a word put together -/

@[simp] theorem fieldOp_nnn (o : Nibble) (a : Addr12) : fieldOp (o ++ a : Word) = o := by
  refine BitVec.eq_of_getElem_eq fun k h => ?_
  unfold fieldOp
  rw [getElem_field _ _ _ _ h (by omega)]
  interval_cases k <;> simp [getElem_word_4_12]

@[simp] theorem fieldNNN_nnn (o : Nibble) (a : Addr12) : fieldNNN (o ++ a : Word) = a := by
  refine BitVec.eq_of_getElem_eq fun k h => ?_
  unfold fieldNNN
  rw [getElem_field _ _ _ _ h (by omega)]
  interval_cases k <;> simp [getElem_word_4_12]

@[simp] theorem fieldOp_xnn (o x : Nibble) (b : Byte) : fieldOp (o ++ x ++ b : Word) = o := by
  refine BitVec.eq_of_getElem_eq fun k h => ?_
  unfold fieldOp
  rw [getElem_field _ _ _ _ h (by omega)]
  interval_cases k <;> simp [getElem_word_8_8, getElem_byte_4_4]

@[simp] theorem fieldX_xnn (o x : Nibble) (b : Byte) : fieldX (o ++ x ++ b : Word) = x := by
  refine BitVec.eq_of_getElem_eq fun k h => ?_
  unfold fieldX
  rw [getElem_field _ _ _ _ h (by omega)]
  interval_cases k <;> simp [getElem_word_8_8, getElem_byte_4_4]

@[simp] theorem fieldNN_xnn (o x : Nibble) (b : Byte) : fieldNN (o ++ x ++ b : Word) = b := by
  refine BitVec.eq_of_getElem_eq fun k h => ?_
  unfold fieldNN
  rw [getElem_field _ _ _ _ h (by omega)]
  interval_cases k <;> simp [getElem_word_8_8]

@[simp] theorem fieldOp_xyn (o x y n : Nibble) : fieldOp (o ++ x ++ y ++ n : Word) = o := by
  refine BitVec.eq_of_getElem_eq fun k h => ?_
  unfold fieldOp
  rw [getElem_field _ _ _ _ h (by omega)]
  interval_cases k <;> simp [getElem_word_12_4, getElem_addr_8_4, getElem_byte_4_4]

@[simp] theorem fieldX_xyn (o x y n : Nibble) : fieldX (o ++ x ++ y ++ n : Word) = x := by
  refine BitVec.eq_of_getElem_eq fun k h => ?_
  unfold fieldX
  rw [getElem_field _ _ _ _ h (by omega)]
  interval_cases k <;> simp [getElem_word_12_4, getElem_addr_8_4, getElem_byte_4_4]

@[simp] theorem fieldY_xyn (o x y n : Nibble) : fieldY (o ++ x ++ y ++ n : Word) = y := by
  refine BitVec.eq_of_getElem_eq fun k h => ?_
  unfold fieldY
  rw [getElem_field _ _ _ _ h (by omega)]
  interval_cases k <;> simp [getElem_word_12_4, getElem_addr_8_4]

@[simp] theorem fieldN_xyn (o x y n : Nibble) : fieldN (o ++ x ++ y ++ n : Word) = n := by
  refine BitVec.eq_of_getElem_eq fun k h => ?_
  unfold fieldN
  rw [getElem_field _ _ _ _ h (by omega)]
  interval_cases k <;> simp [getElem_word_12_4]

/-! ### A word is its fields put together -/

theorem word_eq_nnn (w : Word) : (fieldOp w ++ fieldNNN w : Word) = w := by
  refine BitVec.eq_of_getElem_eq fun k h => ?_
  unfold fieldOp fieldNNN
  interval_cases k <;> simp [getElem_word_4_12]

theorem word_eq_xnn (w : Word) : (fieldOp w ++ fieldX w ++ fieldNN w : Word) = w := by
  refine BitVec.eq_of_getElem_eq fun k h => ?_
  unfold fieldOp fieldX fieldNN
  interval_cases k <;> simp [getElem_word_8_8, getElem_byte_4_4]

theorem word_eq_xyn (w : Word) : (fieldOp w ++ fieldX w ++ fieldY w ++ fieldN w : Word) = w := by
  refine BitVec.eq_of_getElem_eq fun k h => ?_
  unfold fieldOp fieldX fieldY fieldN
  interval_cases k <;> simp [getElem_word_12_4, getElem_addr_8_4, getElem_byte_4_4]

/-- The number of a big-endian word. -/
theorem wordOfBytes_toNat (hi lo : Byte) : (wordOfBytes hi lo).toNat = 256 * hi.toNat + lo.toNat := by
  have h : hi.toNat <<< 8 ||| lo.toNat = 2 ^ 8 * hi.toNat + lo.toNat := by
    rw [Nat.shiftLeft_eq, Nat.mul_comm]
    exact (Nat.two_pow_add_eq_or_of_lt lo.isLt hi.toNat).symm
  exact (BitVec.toNat_append hi lo).trans h

/-- The bytes of a word put together are the word. -/
@[simp] theorem wordOfBytes_hi_lo (w : Word) : wordOfBytes (wordHi w) (wordLo w) = w := by
  refine BitVec.eq_of_getElem_eq fun k h => ?_
  unfold wordOfBytes wordHi wordLo
  interval_cases k <;> simp [getElem_word_8_8]

end Sys2Proof
end

