-- ==== Sys2Proof/Laws/Flags.lean ====
section
/-! SUPPORT. The arithmetic and flag functions as bit-vector operations and as numbers. -/
namespace Sys2Proof.Machine

theorem addWrap_eq (a b : Byte) : addWrap a b = a + b := by
  apply BitVec.eq_of_toNat_eq
  simp [addWrap, BitVec.toNat_add]

theorem subWrap_eq (a b : Byte) : subWrap a b = a - b := by
  apply BitVec.eq_of_toNat_eq
  have ha := a.isLt
  have hb := b.isLt
  simp only [subWrap, BitVec.toNat_ofNat, BitVec.toNat_sub]
  omega

@[simp] theorem addWrap_toNat (a b : Byte) : (addWrap a b).toNat = (a.toNat + b.toNat) % 256 := by
  simp [addWrap]

@[simp] theorem subWrap_toNat (a b : Byte) : (subWrap a b).toNat = (a.toNat + 256 - b.toNat) % 256 := by
  simp [subWrap]

@[simp] theorem shiftRight1_toNat (a : Byte) : (shiftRight1 a).toNat = a.toNat / 2 := by
  simp [shiftRight1, Nat.shiftRight_succ]

@[simp] theorem shiftLeft1_toNat (a : Byte) : (shiftLeft1 a).toNat = a.toNat * 2 % 256 := by
  simp [shiftLeft1, Nat.shiftLeft_succ]
  omega

@[simp] theorem lowBitFlag_toNat (a : Byte) : (lowBitFlag a).toNat = a.toNat % 2 := by
  simp [lowBitFlag, Nat.and_one_is_mod]

@[simp] theorem highBitFlag_toNat (a : Byte) : (highBitFlag a).toNat = a.toNat / 128 := by
  have ha := a.isLt
  simp [highBitFlag, Nat.and_one_is_mod, Nat.shiftRight_eq_div_pow]
  omega

@[simp] theorem flagOf_true : flagOf true = 1 := rfl

@[simp] theorem flagOf_false : flagOf false = 0 := rfl

@[simp] theorem zextByte_toNat (b : Byte) : (zextByte b).toNat = b.toNat := by
  have := b.isLt
  simp [zextByte]
  omega

@[simp] theorem zextAddr_toNat (a : Addr12) : (zextAddr a).toNat = a.toNat := by
  have := a.isLt
  simp [zextAddr]
  omega

/-- The glyph address does not wrap: it lies in the font region (R172). -/
theorem glyphAddr_toNat (p : Params) (v : Byte) :
    (glyphAddr p v).toNat = p.fontBase.val + 5 * (v.toNat % 16) := by
  have := p.fontBase.isLt
  simp only [glyphAddr, BitVec.toNat_ofNat]
  omega

/-- A key index in range names that key under either policy (R212). -/
theorem keyIndex_of_le {p : Params} {v : Byte} (h : v.toNat ≤ 0xF) : keyIndex p v = some (v.setWidth 4) := by
  simp [keyIndex, h]

/-- A key index out of range raises or masks, by the policy (R212). -/
theorem keyIndex_of_gt {p : Params} {v : Byte} (h : 0xF < v.toNat) :
    keyIndex p v = match p.keyIndexPolicy with
      | .fault => none
      | .mask => some (v.setWidth 4) := by
  exact if_neg (Nat.not_le.mpr h)

end Sys2Proof.Machine
end

