-- ==== Sys2Proof/Laws/PerInstr.lean ====
section
/-! SUPPORT. One statement per instruction, as syntax: an instruction's word, whatever its operands, matches the
row of the opcode table that bears its name (spec/30_encoding.md R89). -/
namespace Sys2Proof.Laws.EncodesToItsRow

/-- The word of `i` is accepted by the row of R89 named after `i`. -/
def Statement (i : Instr) : Prop :=
  ∃ r ∈ opcodeTable, r.name = i.mnemonic ∧ r.accepts (encode i) = true

/-- A word equation, bit by bit. -/
theorem of_bits {i : Instr} {r : OpcodeRow} (hm : r ∈ opcodeTable) (hn : r.name = i.mnemonic)
    (hb : ∀ k (h : k < 16), (encode i &&& r.mask)[k] = r.bits[k]) : Statement i :=
  ⟨r, hm, hn, by
    simp only [OpcodeRow.accepts, beq_iff_eq]
    exact BitVec.eq_of_getElem_eq fun k h => hb k h⟩

theorem cls : Statement .cls :=
  of_bits (r := ⟨.CLS, 0x00E0, 0xFFFF⟩) (by decide) rfl fun k h => by
    simp only [encode]
    interval_cases k <;> rfl

theorem ret : Statement .ret :=
  of_bits (r := ⟨.RET, 0x00EE, 0xFFFF⟩) (by decide) rfl fun k h => by
    simp only [encode]
    interval_cases k <;> rfl

theorem jp (nnn : Addr12) : Statement (.jp nnn) :=
  of_bits (r := ⟨.JP, 0x1000, 0xF000⟩) (by decide) rfl fun k h => by
    simp only [encode]
    interval_cases k <;> simp [getElem_word_4_12]

theorem call (nnn : Addr12) : Statement (.call nnn) :=
  of_bits (r := ⟨.CALL, 0x2000, 0xF000⟩) (by decide) rfl fun k h => by
    simp only [encode]
    interval_cases k <;> simp [getElem_word_4_12]

theorem seImm (x : Nibble) (nn : Byte) : Statement (.seImm x nn) :=
  of_bits (r := ⟨.SE_IMM, 0x3000, 0xF000⟩) (by decide) rfl fun k h => by
    simp only [encode]
    interval_cases k <;> simp [getElem_word_8_8, getElem_byte_4_4]

theorem sneImm (x : Nibble) (nn : Byte) : Statement (.sneImm x nn) :=
  of_bits (r := ⟨.SNE_IMM, 0x4000, 0xF000⟩) (by decide) rfl fun k h => by
    simp only [encode]
    interval_cases k <;> simp [getElem_word_8_8, getElem_byte_4_4]

theorem seReg (x : Nibble) (y : Nibble) : Statement (.seReg x y) :=
  of_bits (r := ⟨.SE_REG, 0x5000, 0xF00F⟩) (by decide) rfl fun k h => by
    simp only [encode]
    interval_cases k <;> simp [getElem_word_12_4, getElem_addr_8_4, getElem_byte_4_4]

theorem ldImm (x : Nibble) (nn : Byte) : Statement (.ldImm x nn) :=
  of_bits (r := ⟨.LD_IMM, 0x6000, 0xF000⟩) (by decide) rfl fun k h => by
    simp only [encode]
    interval_cases k <;> simp [getElem_word_8_8, getElem_byte_4_4]

theorem addImm (x : Nibble) (nn : Byte) : Statement (.addImm x nn) :=
  of_bits (r := ⟨.ADD_IMM, 0x7000, 0xF000⟩) (by decide) rfl fun k h => by
    simp only [encode]
    interval_cases k <;> simp [getElem_word_8_8, getElem_byte_4_4]

theorem ldReg (x : Nibble) (y : Nibble) : Statement (.ldReg x y) :=
  of_bits (r := ⟨.LD_REG, 0x8000, 0xF00F⟩) (by decide) rfl fun k h => by
    simp only [encode]
    interval_cases k <;> simp [getElem_word_12_4, getElem_addr_8_4, getElem_byte_4_4]

theorem orReg (x : Nibble) (y : Nibble) : Statement (.orReg x y) :=
  of_bits (r := ⟨.OR, 0x8001, 0xF00F⟩) (by decide) rfl fun k h => by
    simp only [encode]
    interval_cases k <;> simp [getElem_word_12_4, getElem_addr_8_4, getElem_byte_4_4]

theorem andReg (x : Nibble) (y : Nibble) : Statement (.andReg x y) :=
  of_bits (r := ⟨.AND, 0x8002, 0xF00F⟩) (by decide) rfl fun k h => by
    simp only [encode]
    interval_cases k <;> simp [getElem_word_12_4, getElem_addr_8_4, getElem_byte_4_4]

theorem xorReg (x : Nibble) (y : Nibble) : Statement (.xorReg x y) :=
  of_bits (r := ⟨.XOR, 0x8003, 0xF00F⟩) (by decide) rfl fun k h => by
    simp only [encode]
    interval_cases k <;> simp [getElem_word_12_4, getElem_addr_8_4, getElem_byte_4_4]

theorem addReg (x : Nibble) (y : Nibble) : Statement (.addReg x y) :=
  of_bits (r := ⟨.ADD_REG, 0x8004, 0xF00F⟩) (by decide) rfl fun k h => by
    simp only [encode]
    interval_cases k <;> simp [getElem_word_12_4, getElem_addr_8_4, getElem_byte_4_4]

theorem sub (x : Nibble) (y : Nibble) : Statement (.sub x y) :=
  of_bits (r := ⟨.SUB, 0x8005, 0xF00F⟩) (by decide) rfl fun k h => by
    simp only [encode]
    interval_cases k <;> simp [getElem_word_12_4, getElem_addr_8_4, getElem_byte_4_4]

theorem shr (x : Nibble) (y : Nibble) : Statement (.shr x y) :=
  of_bits (r := ⟨.SHR, 0x8006, 0xF00F⟩) (by decide) rfl fun k h => by
    simp only [encode]
    interval_cases k <;> simp [getElem_word_12_4, getElem_addr_8_4, getElem_byte_4_4]

theorem subn (x : Nibble) (y : Nibble) : Statement (.subn x y) :=
  of_bits (r := ⟨.SUBN, 0x8007, 0xF00F⟩) (by decide) rfl fun k h => by
    simp only [encode]
    interval_cases k <;> simp [getElem_word_12_4, getElem_addr_8_4, getElem_byte_4_4]

theorem shl (x : Nibble) (y : Nibble) : Statement (.shl x y) :=
  of_bits (r := ⟨.SHL, 0x800E, 0xF00F⟩) (by decide) rfl fun k h => by
    simp only [encode]
    interval_cases k <;> simp [getElem_word_12_4, getElem_addr_8_4, getElem_byte_4_4]

theorem sneReg (x : Nibble) (y : Nibble) : Statement (.sneReg x y) :=
  of_bits (r := ⟨.SNE_REG, 0x9000, 0xF00F⟩) (by decide) rfl fun k h => by
    simp only [encode]
    interval_cases k <;> simp [getElem_word_12_4, getElem_addr_8_4, getElem_byte_4_4]

theorem ldI (nnn : Addr12) : Statement (.ldI nnn) :=
  of_bits (r := ⟨.LD_I, 0xA000, 0xF000⟩) (by decide) rfl fun k h => by
    simp only [encode]
    interval_cases k <;> simp [getElem_word_4_12]

theorem jpV0 (nnn : Addr12) : Statement (.jpV0 nnn) :=
  of_bits (r := ⟨.JP_V0, 0xB000, 0xF000⟩) (by decide) rfl fun k h => by
    simp only [encode]
    interval_cases k <;> simp [getElem_word_4_12]

theorem rnd (x : Nibble) (nn : Byte) : Statement (.rnd x nn) :=
  of_bits (r := ⟨.RND, 0xC000, 0xF000⟩) (by decide) rfl fun k h => by
    simp only [encode]
    interval_cases k <;> simp [getElem_word_8_8, getElem_byte_4_4]

theorem drw (x : Nibble) (y : Nibble) (n : Nibble) : Statement (.drw x y n) :=
  of_bits (r := ⟨.DRW, 0xD000, 0xF000⟩) (by decide) rfl fun k h => by
    simp only [encode]
    interval_cases k <;> simp [getElem_word_12_4, getElem_addr_8_4, getElem_byte_4_4]

theorem skp (x : Nibble) : Statement (.skp x) :=
  of_bits (r := ⟨.SKP, 0xE09E, 0xF0FF⟩) (by decide) rfl fun k h => by
    simp only [encode]
    interval_cases k <;> simp [getElem_word_8_8, getElem_byte_4_4]

theorem sknp (x : Nibble) : Statement (.sknp x) :=
  of_bits (r := ⟨.SKNP, 0xE0A1, 0xF0FF⟩) (by decide) rfl fun k h => by
    simp only [encode]
    interval_cases k <;> simp [getElem_word_8_8, getElem_byte_4_4]

theorem ldVxDt (x : Nibble) : Statement (.ldVxDt x) :=
  of_bits (r := ⟨.LD_VX_DT, 0xF007, 0xF0FF⟩) (by decide) rfl fun k h => by
    simp only [encode]
    interval_cases k <;> simp [getElem_word_8_8, getElem_byte_4_4]

theorem ldVxK (x : Nibble) : Statement (.ldVxK x) :=
  of_bits (r := ⟨.LD_VX_K, 0xF00A, 0xF0FF⟩) (by decide) rfl fun k h => by
    simp only [encode]
    interval_cases k <;> simp [getElem_word_8_8, getElem_byte_4_4]

theorem ldDtVx (x : Nibble) : Statement (.ldDtVx x) :=
  of_bits (r := ⟨.LD_DT_VX, 0xF015, 0xF0FF⟩) (by decide) rfl fun k h => by
    simp only [encode]
    interval_cases k <;> simp [getElem_word_8_8, getElem_byte_4_4]

theorem ldStVx (x : Nibble) : Statement (.ldStVx x) :=
  of_bits (r := ⟨.LD_ST_VX, 0xF018, 0xF0FF⟩) (by decide) rfl fun k h => by
    simp only [encode]
    interval_cases k <;> simp [getElem_word_8_8, getElem_byte_4_4]

theorem addIVx (x : Nibble) : Statement (.addIVx x) :=
  of_bits (r := ⟨.ADD_I_VX, 0xF01E, 0xF0FF⟩) (by decide) rfl fun k h => by
    simp only [encode]
    interval_cases k <;> simp [getElem_word_8_8, getElem_byte_4_4]

theorem ldFVx (x : Nibble) : Statement (.ldFVx x) :=
  of_bits (r := ⟨.LD_F_VX, 0xF029, 0xF0FF⟩) (by decide) rfl fun k h => by
    simp only [encode]
    interval_cases k <;> simp [getElem_word_8_8, getElem_byte_4_4]

theorem ldBVx (x : Nibble) : Statement (.ldBVx x) :=
  of_bits (r := ⟨.LD_B_VX, 0xF033, 0xF0FF⟩) (by decide) rfl fun k h => by
    simp only [encode]
    interval_cases k <;> simp [getElem_word_8_8, getElem_byte_4_4]

theorem stRegs (x : Nibble) : Statement (.stRegs x) :=
  of_bits (r := ⟨.ST_REGS, 0xF055, 0xF0FF⟩) (by decide) rfl fun k h => by
    simp only [encode]
    interval_cases k <;> simp [getElem_word_8_8, getElem_byte_4_4]

theorem ldRegs (x : Nibble) : Statement (.ldRegs x) :=
  of_bits (r := ⟨.LD_REGS, 0xF065, 0xF0FF⟩) (by decide) rfl fun k h => by
    simp only [encode]
    interval_cases k <;> simp [getElem_word_8_8, getElem_byte_4_4]

end Sys2Proof.Laws.EncodesToItsRow
end

