-- ==== Sys2Proof/Laws/Runs.lean ====
section
/-! SUPPORT. Runs of host transactions: a run in pieces, and the finite prefixes of an infinite run
(spec/70_reset_and_hazards.md R283). -/
namespace Sys2Proof.Machine

@[simp] theorem runTxns_nil (s : State) : runTxns [] s = .next s := rfl

/-- A run goes on from the state its first transaction leaves. -/
theorem runTxns_cons {t : Txn} {s u : State} {r : Reply} (h : t.apply s = .next (u, r)) (ts : List Txn) :
    runTxns (t :: ts) s = runTxns ts u := by
  simp only [runTxns, h]

/-- A run in two pieces. -/
theorem runTxns_append {s u : State} (ts₁ ts₂ : List Txn) (h : runTxns ts₁ s = .next u) :
    runTxns (ts₁ ++ ts₂) s = runTxns ts₂ u := by
  induction ts₁ generalizing s with
  | nil =>
    injection h with h
    rw [List.nil_append, h]
  | cons t ts ih =>
    cases ha : t.apply s with
    | next q =>
      rw [runTxns_cons ha] at h
      rw [List.cons_append, runTxns_cons ha, ih h]
    | fault f => simp [runTxns, ha] at h
    | refused r => simp [runTxns, ha] at h

/-- The first `n` transactions of an infinite run are a finite run from its first state. -/
theorem IsRun.runTxns_eq {ts : Nat → Txn} {σ : Nat → State} (h : IsRun ts σ) (n : Nat) :
    runTxns ((List.range n).map ts) (σ 0) = .next (σ n) := by
  induction n with
  | zero => rfl
  | succ n ih =>
    obtain ⟨r, hr⟩ := h n
    rw [List.range_succ, List.map_append, runTxns_append _ _ ih]
    exact runTxns_cons hr []

/-- An infinite run from a later state on is an infinite run. -/
theorem IsRun.tail {ts : Nat → Txn} {σ : Nat → State} (h : IsRun ts σ) (n : Nat) :
    IsRun (fun k => ts (n + k)) (fun k => σ (n + k)) :=
  fun k => h (n + k)

/-- Fairness holds of every tail of a fair order. -/
theorem Fair.tail {ts : Nat → Txn} (h : Fair ts) (n : Nat) : Fair fun k => ts (n + k) := by
  refine ⟨fun k => ?_, fun k => ?_⟩
  · obtain ⟨m, hm, ht⟩ := h.1 (n + k)
    exact ⟨m - n, by omega, by simpa [Nat.add_sub_cancel' (show n ≤ m by omega)] using ht⟩
  · obtain ⟨m, hm, ht⟩ := h.2 (n + k)
    exact ⟨m - n, by omega, by simpa [Nat.add_sub_cancel' (show n ≤ m by omega)] using ht⟩

/-- Steps and ticks in turn are a fair order. -/
theorem fair_alternating : Fair fun n => if n % 2 = 0 then .step else .tickTimers :=
  ⟨fun n => ⟨2 * n, by omega, if_pos (by omega)⟩, fun n => ⟨2 * n + 1, by omega, if_neg (by omega)⟩⟩

end Sys2Proof.Machine
end

