-- ==== Sys2Proof/Tests/Slice0.lean ====
section
/-! SUPPORT. Tests: the well-formedness smoke, one decoded word per constructor, single steps from the spec's test
vectors (spec/95_test_vectors.md, T<n>), and a witness for the hypotheses of each statement. -/
namespace Sys2Proof.Tests

open Sys2Proof.Machine Sys2Proof.Safety

/-- The reset state with these V registers set. -/
def withV (s : State) : List (Nibble × Byte) → State
  | [] => s
  | (x, b) :: l => withV (s.setV x b) l

/-- A state at reset with these registers and this word at `pc`. -/
def at' (s : State) (l : List (Nibble × Byte)) (w : Nat) : State := (withV s l).withFetchWord 16 w

/-- The state after one step. -/
def after (s : State) : Option State :=
  match step s with
  | .next t => some t
  | .fault _ => none
  | .refused _ => none

/-- The reset state with other parameters. -/
def boundsOnly : State := { State.reset with params := { Params.default with pcCheck := .boundsOnly } }
def maskKeys : State := { State.reset with params := { Params.default with keyIndexPolicy := .mask } }
def allowFont : State := { State.reset with params := { Params.default with fontWritePolicy := .allow } }

/-! ### Well-formedness refuses ill-formed words and bytes -/

theorem test_wf_refuses_empty : wellFormedBytes [] = false := by decide
theorem test_wf_refuses_one_byte : wellFormedBytes [0x60] = false := by decide
theorem test_wf_refuses_family_0 : legalWord 0x00E1 = false ∧ legalWord 0x0123 = false := by decide
theorem test_wf_refuses_family_5 : legalWord 0x5121 = false := by decide
theorem test_wf_refuses_family_8 : legalWord 0x8008 = false ∧ legalWord 0x800F = false := by decide
theorem test_wf_refuses_family_9 : legalWord 0x9121 = false := by decide
theorem test_wf_refuses_family_E : legalWord 0xE000 = false ∧ legalWord 0xE19F = false := by decide
theorem test_wf_refuses_family_F : legalWord 0xF000 = false ∧ legalWord 0xFFFF = false := by decide
theorem test_wf_accepts : wellFormedBytes [0x60, 0x2A] = true ∧ Instr.wellFormed .cls = true := by decide
theorem test_decode_rejects_by_name :
    decodeBytes [0x01, 0x23] = .reject (.illegalWord 0x0123) ∧ decodeBytes [0x60] = .reject .truncated := by decide

/-! ### Decoding: one word per constructor, written out from R72 and R89 -/

theorem test_decode_cls : decodeWord 0x00E0 = some .cls := by decide
theorem test_decode_ret : decodeWord 0x00EE = some .ret := by decide
theorem test_decode_jp : decodeWord 0x1204 = some (.jp 0x204) := by decide
theorem test_decode_call : decodeWord 0x2208 = some (.call 0x208) := by decide
theorem test_decode_seImm : decodeWord 0x3342 = some (.seImm 3 0x42) := by decide
theorem test_decode_sneImm : decodeWord 0x4005 = some (.sneImm 0 5) := by decide
theorem test_decode_seReg : decodeWord 0x5120 = some (.seReg 1 2) := by decide
theorem test_decode_ldImm : decodeWord 0x6A2B = some (.ldImm 0xA 0x2B) := by decide
theorem test_decode_addImm : decodeWord 0x7103 = some (.addImm 1 3) := by decide
theorem test_decode_ldReg : decodeWord 0x82F0 = some (.ldReg 2 0xF) := by decide
theorem test_decode_orReg : decodeWord 0x8AB1 = some (.orReg 0xA 0xB) := by decide
theorem test_decode_andReg : decodeWord 0x8122 = some (.andReg 1 2) := by decide
theorem test_decode_xorReg : decodeWord 0x8123 = some (.xorReg 1 2) := by decide
theorem test_decode_addReg : decodeWord 0x8124 = some (.addReg 1 2) := by decide
theorem test_decode_sub : decodeWord 0x8345 = some (.sub 3 4) := by decide
theorem test_decode_shr : decodeWord 0x8616 = some (.shr 6 1) := by decide
theorem test_decode_subn : decodeWord 0x8127 = some (.subn 1 2) := by decide
theorem test_decode_shl : decodeWord 0x861E = some (.shl 6 1) := by decide
theorem test_decode_sneReg : decodeWord 0x9120 = some (.sneReg 1 2) := by decide
theorem test_decode_ldI : decodeWord 0xA300 = some (.ldI 0x300) := by decide
theorem test_decode_jpV0 : decodeWord 0xBFFE = some (.jpV0 0xFFE) := by decide
theorem test_decode_rnd : decodeWord 0xC50F = some (.rnd 5 0x0F) := by decide
theorem test_decode_drw : decodeWord 0xD123 = some (.drw 1 2 3) := by decide
theorem test_decode_skp : decodeWord 0xE19E = some (.skp 1) := by decide
theorem test_decode_sknp : decodeWord 0xE2A1 = some (.sknp 2) := by decide
theorem test_decode_ldVxDt : decodeWord 0xF307 = some (.ldVxDt 3) := by decide
theorem test_decode_ldVxK : decodeWord 0xF30A = some (.ldVxK 3) := by decide
theorem test_decode_ldDtVx : decodeWord 0xF415 = some (.ldDtVx 4) := by decide
theorem test_decode_ldStVx : decodeWord 0xF518 = some (.ldStVx 5) := by decide
theorem test_decode_addIVx : decodeWord 0xF21E = some (.addIVx 2) := by decide
theorem test_decode_ldFVx : decodeWord 0xF629 = some (.ldFVx 6) := by decide
theorem test_decode_ldBVx : decodeWord 0xF733 = some (.ldBVx 7) := by decide
theorem test_decode_stRegs : decodeWord 0xF355 = some (.stRegs 3) := by decide
theorem test_decode_ldRegs : decodeWord 0xFF65 = some (.ldRegs 0xF) := by decide

/-! ### Encoding: one word per format -/

theorem test_encode_formats :
    encode .ret = 0x00EE ∧ encode (.jp 0x204) = 0x1204 ∧ encode (.seImm 3 0x42) = 0x3342 ∧
      encode (.shl 6 1) = 0x861E ∧ encode (.drw 1 2 3) = 0xD123 ∧ encode (.ldRegs 0xF) = 0xFF65 := by decide

/-! ### Single steps from the spec's vectors -/

/-- T130 -/
theorem test_cls :
    (after (at' { State.reset with fb := Frame.blank.put 10 5 true } [] 0x00E0)).map (fun t => (t.fb.pixel 10 5, t.dirty, t.pc)) = some (false, true, 0x202) := by decide

/-- T28 -/
theorem test_ret_keeps_slot :
    (after (at' { State.reset with sp := 1, stack := State.reset.stack.set 0 0x204, pc := 0x20E } [] 0x00EE)).map (fun t => (t.sp, t.pc, t.stack[0])) = some (0, 0x204, 0x204) := by decide

/-- T29 -/
theorem test_ret_underflow :
    (after (at' State.reset [] 0x00EE)).map (fun t => (t.execState, t.pc)) = some (.halted .stackUnderflow 0x200, 0x200) := by decide

/-- T20 -/
theorem test_jp :
    (after (at' { State.reset with pc := 0x20A } [] 0x1204)).map (fun t => t.pc) = some 0x204 := by decide

/-- T26 -/
theorem test_call_last_slot :
    (after (at' { State.reset with sp := 15 } [] 0x2300)).map (fun t => (t.stack[15], t.sp, t.pc)) = some (0x202, 16, 0x300) := by decide

/-- T27 -/
theorem test_call_overflow :
    (after (at' { State.reset with sp := 16 } [] 0x2300)).map (fun t => (t.execState, t.sp, t.pc)) = some (.halted .stackOverflow 0x200, 16, 0x200) := by decide

/-- T30 -/
theorem test_seImm_taken :
    (after (at' { State.reset with pc := 0x208 } [(3, 0)] 0x3300)).map (fun t => t.pc) = some 0x20C := by decide

/-- T32 -/
theorem test_sneImm_not_taken :
    (after (at' State.reset [(0, 5)] 0x4005)).map (fun t => t.pc) = some 0x202 := by decide

/-- T35 -/
theorem test_seReg_same :
    (after (at' State.reset [(1, 7)] 0x5110)).map (fun t => t.pc) = some 0x204 := by decide

/-- T36 -/
theorem test_sneReg :
    (after (at' State.reset [(1, 7), (2, 8)] 0x9120)).map (fun t => t.pc) = some 0x204 := by decide

/-- T51 -/
theorem test_ldImm_vf :
    (after (at' State.reset [] 0x6F77)).map (fun t => (t.getV 0xF, t.pc)) = some (0x77, 0x202) := by decide

/-- T52 -/
theorem test_addImm_wraps :
    (after (at' State.reset [(0, 0xFF), (0xF, 0x33)] 0x7001)).map (fun t => (t.getV 0, t.getV 0xF)) = some (0x00, 0x33) := by decide

/-- T55 -/
theorem test_ldReg :
    (after (at' State.reset [(1, 0x42)] 0x8010)).map (fun t => t.getV 0) = some 0x42 := by decide

/-- T57 -/
theorem test_orReg_into_vf :
    (after (at' State.reset [(0xF, 0x10), (0, 1)] 0x8F01)).map (fun t => t.getV 0xF) = some 0x11 := by decide

/-- T58 -/
theorem test_andReg :
    (after (at' State.reset [(0, 0xF0), (1, 0x3C)] 0x8012)).map (fun t => t.getV 0) = some 0x30 := by decide

/-- T60 -/
theorem test_xorReg_same :
    (after (at' State.reset [(0, 0x5A)] 0x8003)).map (fun t => t.getV 0) = some 0x00 := by decide

/-- T63 -/
theorem test_addReg_flag_wins :
    (after (at' State.reset [(1, 0xF0), (0xF, 0x10)] 0x8F14)).map (fun t => t.getV 0xF) = some 1 := by decide

/-- T64 -/
theorem test_addReg_old_vf :
    (after (at' State.reset [(0, 1), (0xF, 0xFF)] 0x80F4)).map (fun t => (t.getV 0, t.getV 0xF)) = some (0, 1) := by decide

/-- S3 -/
theorem test_sub_borrow :
    (after (at' State.reset [(0, 1), (1, 2)] 0x8015)).map (fun t => (t.getV 0, t.getV 0xF)) = some (0xFF, 0) := by decide

/-- T68 -/
theorem test_sub_flag_wins :
    (after (at' State.reset [(0xF, 5), (1, 3)] 0x8F15)).map (fun t => t.getV 0xF) = some 1 := by decide

/-- T71 -/
theorem test_shr_ignores_vy :
    (after (at' State.reset [(0, 4), (1, 0xFF)] 0x8016)).map (fun t => (t.getV 0, t.getV 0xF, t.getV 1)) = some (2, 0, 0xFF) := by decide

/-- T72 -/
theorem test_shr_flag_wins :
    (after (at' State.reset [(0xF, 3)] 0x8F06)).map (fun t => t.getV 0xF) = some 1 := by decide

/-- T73 -/
theorem test_subn_borrow :
    (after (at' State.reset [(0, 2), (1, 1)] 0x8017)).map (fun t => (t.getV 0, t.getV 0xF)) = some (0xFF, 0) := by decide

/-- T76 -/
theorem test_shl :
    (after (at' State.reset [(6, 0x81)] 0x860E)).map (fun t => (t.getV 6, t.getV 0xF)) = some (2, 1) := by decide

/-- T79 -/
theorem test_shl_flag_wins :
    (after (at' State.reset [(0xF, 0x7F)] 0x8F0E)).map (fun t => t.getV 0xF) = some 0 := by decide

/-- T90 -/
theorem test_ldI :
    (after (at' State.reset [] 0xA300)).map (fun t => t.i) = some 0x300 := by decide

/-- T92 -/
theorem test_addIVx_no_flag :
    (after (at' { State.reset with i := 0x0FFF } [(0, 1), (0xF, 7)] 0xF01E)).map (fun t => (t.i, t.getV 0xF)) = some (0x1000, 7) := by decide

/-- T93 -/
theorem test_addIVx_wraps :
    (after (at' { State.reset with i := 0xFFFF } [(0, 1)] 0xF01E)).map (fun t => t.i) = some 0x0000 := by decide

/-- T41 -/
theorem test_jpV0 :
    (after (at' State.reset [(0, 0xFF), (5, 0x22)] 0xBFFF)).map (fun t => t.pc) = some 0x10FE := by decide

/-- T96 -/
theorem test_ldFVx_low_nibble :
    (after (at' State.reset [(0, 0x1A)] 0xF029)).map (fun t => t.i) = some 0x082 := by decide

/-- T99 -/
theorem test_ldBVx :
    (after (at' { State.reset with i := 0x300 } [(0, 0xFE)] 0xF033)).map (fun t => (t.readByte 0x300, t.readByte 0x301, t.readByte 0x302, t.i)) = some (2, 5, 4, 0x300) := by decide

/-- T107 -/
theorem test_ldBVx_font :
    (after (at' { State.reset with i := 0x04E } [(0, 7)] 0xF033)).map (fun t => (t.execState, t.readByte 0x04E)) = some (.halted .fontWriteFault 0x050, 0) := by decide

/-- T113 -/
theorem test_stRegs_past_font :
    (after (at' { State.reset with i := 0x0A0 } [(0, 9), (1, 8)] 0xF155)).map (fun t => (t.readByte 0x0A0, t.readByte 0x0A1, t.i)) = some (9, 8, 0x0A0) := by decide

/-- T111 -/
theorem test_stRegs_bounds :
    (after (at' { State.reset with i := 0xFFF } [(0, 9), (1, 8)] 0xF155)).map (fun t => (t.execState, t.readByte 0xFFF)) = some (.halted .boundsError 0x1000, 0) := by decide

/-- T118 -/
theorem test_ldRegs_font :
    (after (at' { State.reset with i := 0x050 } [] 0xF465)).map (fun t => (t.getV 0, t.getV 1, t.getV 4, t.getV 5)) = some (0xF0, 0x90, 0xF0, 0) := by decide

/-- T116 -/
theorem test_ldRegs_bounds :
    (after (at' { State.reset with i := 0xFF1 } [(3, 9)] 0xFF65)).map (fun t => (t.execState, t.getV 3)) = some (.halted .boundsError 0x1000, 9) := by decide

/-- T137: the second sprite column is clipped, not wrapped onto (0,0) -/
theorem test_drw_clips :
    (after (at' ({ State.reset with i := 0x300, fb := Frame.blank.put 0 0 true }.writeByte 0x300 0xC0) [(0, 63)] 0xD011)).map (fun t => (t.fb.pixel 0 0, t.fb.pixel 63 0, t.getV 0xF)) = some (true, true, 0) := by decide

/-- T136 -/
theorem test_drw_collides :
    (after (at' ({ State.reset with i := 0x300, fb := Frame.blank.put 1 0 true }.writeByte 0x300 0xC0) [] 0xD011)).map (fun t => (t.fb.pixel 0 0, t.fb.pixel 1 0, t.getV 0xF, t.dirty)) = some (true, false, 1, true) := by decide

/-- T140 -/
theorem test_drw_checks_clipped_rows :
    (after (at' { State.reset with i := 0xFFF } [(1, 31)] 0xD012)).map (fun t => (t.execState, t.dirty)) = some (.halted .boundsError 0x1000, false) := by decide

/-- T150 -/
theorem test_skp :
    (after (at' { State.reset with pc := 0x202, key := State.reset.key.set 0xA true } [(1, 0xA)] 0xE19E)).map (fun t => t.pc) = some 0x206 := by decide

/-- T155 -/
theorem test_skp_masked :
    (after (at' { maskKeys with key := maskKeys.key.set 0 true } [(1, 0x10)] 0xE19E)).map (fun t => t.pc) = some 0x204 := by decide

/-- T153 -/
theorem test_sknp :
    (after (at' { State.reset with key := State.reset.key.set 3 true } [(2, 3)] 0xE2A1)).map (fun t => t.pc) = some 0x202 := by decide

/-- T156 -/
theorem test_ldVxDt :
    (after (at' { State.reset with dt := 0x3C } [] 0xF307)).map (fun t => t.getV 3) = some 0x3C := by decide

/-- S6 step 1 -/
theorem test_ldVxK :
    (after (at' State.reset [] 0xF30A)).map (fun t => (t.execState, t.pc)) = some (.waitingForKey 3, 0x202) := by decide

/-- T157 -/
theorem test_ldDtVx :
    (after (at' State.reset [(0, 0x3C)] 0xF015)).map (fun t => t.dt) = some 0x3C := by decide

/-- T158 -/
theorem test_ldStVx :
    (after (at' State.reset [(0, 2)] 0xF018)).map (fun t => (t.st, t.soundActive)) = some (2, true) := by decide

/-- T81: a mask of 0 gives 0, whatever the random byte is. -/
theorem test_rnd_mask_zero :
    exec (.rnd 5 0) State.reset = .next { State.reset with pc := 0x202, rndCount := 1 } := by
  have h : ∀ r : Byte, State.rndWith { State.reset with rndCount := 1 } r 5 0 =
      { State.reset with pc := 0x202, rndCount := 1 } := by
    intro r
    unfold State.rndWith
    rw [show r &&& (0 : Byte) = 0 from BitVec.and_zero]
    decide
  exact congrArg Host.Outcome.next (h _)

/-! ### The cycle and the transactions from the spec's vectors -/

/-- T9: the word at 0x200 is big-endian. -/
theorem test_fetch_big_endian :
    (((State.reset.writeByte 0x200 0x60).writeByte 0x201 0x2A).fetchWord) = 0x602A := by decide

/-- T1, T2, T3. -/
theorem test_pc_fault :
    after { State.reset with pc := 0x201 } = some { State.reset with pc := 0x201, execState := .halted .pcFault 0x201 } ∧
    after { State.reset with pc := 0x1FE } = some { State.reset with pc := 0x1FE, execState := .halted .pcFault 0x1FE } ∧
    after { State.reset with pc := 0x1000 } =
      some { State.reset with pc := 0x1000, execState := .halted .pcFault 0x1000 } := by decide

/-- T4, T5. -/
theorem test_bounds_only :
    (after { boundsOnly with pc := 0x1000 }).map (·.execState) = some (.halted .boundsError 0x1000) ∧
    (after { boundsOnly with pc := 0xFFF }).map (·.execState) = some (.halted .boundsError 0x1000) := by decide

/-- T8: below 0x200 under `bounds_only`. -/
theorem test_bounds_only_low_pc :
    (after (at' { boundsOnly with pc := 0x100 } [] 0x6001)).map (fun t => (t.getV 0, t.pc)) = some (1, 0x102) := by decide

/-- S8: 0x0123 is a decode error with the word as its record. -/
theorem test_illegal_word :
    (after (at' State.reset [] 0x0123)).map (fun t => (t.execState, t.pc)) =
      some (.halted .decodeError 0x0123, 0x200) := by decide

/-- T190: nothing loaded, the first step decodes 0x0000. -/
theorem test_step_from_reset : (after State.reset).map (·.execState) = some (.halted .decodeError 0x0000) := by decide

/-- T108: the font may be written under `allow`. -/
theorem test_font_write_allowed :
    (after (at' { allowFont with i := 0x050 } [(0, 123)] 0xF033)).map
      (fun t => (t.readByte 0x050, t.readByte 0x051, t.readByte 0x052)) = some (1, 2, 3) := by decide

/-- T161: a press of a latched key resolves the wait. -/
theorem test_set_key :
    let s := { State.reset with execState := .waitingForKey 1, key := State.reset.key.set 5 true }.setKey 5 true
    (s.getV 1, s.execState) = (5, .executing) := by decide

/-- T164, T165. -/
theorem test_tick :
    let r := { State.reset with dt := 5, st := 1 }.tickTimers
    (r.1.dt, r.1.st, r.2, r.1.soundActive) = (4, 0, true, false) ∧
      { State.reset with st := 2 }.tickTimers.2 = false := by decide

/-- T188 to T190, on a short image: the bytes stand from 0x200. -/
theorem test_load :
    let r := State.reset.load [0x60, 0x2A]
    (r.1.readByte 0x200, r.1.readByte 0x201, r.1.readByte 0x202, r.2) = (0x60, 0x2A, 0, .ok) ∧
      State.reset.load [] = (State.reset, .ok) := by decide

/-- T186: `initialize` keeps V0 and DT. -/
theorem test_initialize :
    let s := { State.reset with dt := 3, pc := 0x300, i := 0x123, sp := 2 }.initCore
    (s.pc, s.i, s.sp, s.dt) = (0x200, 0, 0, 3) := by
  refine Prod.ext rfl (Prod.ext rfl (Prod.ext rfl rfl))

/-- T191: glyph 0 at 0x050, and glyph F ends at 0x09F. -/
theorem test_font :
    State.reset.readByte 0x050 = 0xF0 ∧ State.reset.readByte 0x051 = 0x90 ∧ State.reset.readByte 0x09F = 0x80 ∧
      State.reset.readByte 0x0A0 = 0 := by decide

/-- The decoder on the table's numbering, and a step on a placed word. -/
theorem test_table_word : decodeTableWord 16 0xD123 = some (.drw 1 2 3) ∧ decodeTableWord 16 0x0123 = none := by decide

/-! ### Witnesses: each statement's hypotheses can be met -/

theorem witness_EncodeOfDecodeIsTheWord :
    decodeWord 0x861E = some (.shl 6 1) :=
  by decide

theorem witness_DecoderAgreesWithOpcodeTable :
    (⟨.RET, 0x00EE, 0xFFFF⟩ : OpcodeRow) ∈ opcodeTable :=
  by decide

theorem witness_StepRunsTheDecodedInstruction :
    let s := at' { State.reset with pc := 0xFFE } [] 0x6001
    s.execState = .executing ∧ s.pc.toNat ≤ 0xFFE ∧
      (s.params.pcCheck = .invariant → s.pc.toNat % 2 = 0 ∧ 0x200 ≤ s.pc.toNat) ∧
      decodeWord s.fetchWord = some (.ldImm 0 1) :=
  by decide

theorem witness_StepRunsTheDecodedInstruction_boundsOnly :
    let s := at' { boundsOnly with pc := 0x101 } [] 0x6001
    s.execState = .executing ∧ s.pc.toNat ≤ 0xFFE ∧
      (s.params.pcCheck = .invariant → s.pc.toNat % 2 = 0 ∧ 0x200 ≤ s.pc.toNat) ∧
      decodeWord s.fetchWord = some (.ldImm 0 1) :=
  by decide

theorem witness_StepChangesNothingWhenSuspended :
    (State.reset.setExecState (.waitingForKey 1)).execState ≠ .executing :=
  by decide

theorem witness_StepRaisesBeforeExecuting_pcFault :
    let s := { State.reset with pc := 0x201 }
    s.execState = .executing ∧ s.params.pcCheck = .invariant ∧
      (s.pc.toNat % 2 ≠ 0 ∨ s.pc.toNat < 0x200 ∨ s.pc.toNat > 0xFFE) :=
  by decide

theorem witness_StepRaisesBeforeExecuting_bounds :
    let s := { boundsOnly with pc := 0x1000 }
    s.execState = .executing ∧ s.params.pcCheck = .boundsOnly ∧ s.pc.toNat > 0xFFF :=
  by decide

theorem witness_StepRaisesBeforeExecuting_last_byte :
    let s := { boundsOnly with pc := 0xFFF }
    s.execState = .executing ∧ s.params.pcCheck = .boundsOnly ∧ s.pc.toNat = 0xFFF :=
  by decide

theorem witness_StepRaisesBeforeExecuting_decode :
    let s := { boundsOnly with pc := 0xFFE }
    s.execState = .executing ∧ s.pc.toNat ≤ 0xFFE ∧
      (s.params.pcCheck = .invariant → s.pc.toNat % 2 = 0 ∧ 0x200 ≤ s.pc.toNat) ∧ decodeWord s.fetchWord = none :=
  by decide

theorem witness_FaultsArePrecise :
    ∃ t, State.reset.execState = .executing ∧ step State.reset = .next t ∧
      t.execState = .halted .decodeError 0 :=
  ⟨State.reset.raise .decodeError 0, rfl, rfl, rfl⟩

theorem witness_ExecStateTransitionsOfAStep :
    ∃ t, step (at' State.reset [] 0xFF0A) = .next t ∧ t.execState = .waitingForKey 0xF :=
  ⟨_, rfl, by decide⟩

theorem witness_ExecStateTransitionsOfAStep_suspended :
    let s := State.reset.setExecState (.waitingForKey 1)
    step s = .next s ∧ s.execState ≠ .executing :=
  ⟨rfl, by decide⟩

theorem witness_InstructionsRaiseOnlyTheirFaults :
    ∃ t, State.reset.execState = .executing ∧ exec .ret State.reset = .next t ∧
      t.execState = .halted .stackUnderflow 0x200 :=
  ⟨State.reset.raise .stackUnderflow 0x200, rfl, rfl, rfl⟩

theorem witness_StepKeepsMemoryCanonical :
    ∃ t, MemCanonical State.reset ∧ step State.reset = .next t :=
  ⟨_, rfl, rfl⟩

theorem witness_StepKeepsAddressesBounded :
    ∃ t, AddressesBounded State.reset ∧ step State.reset = .next t :=
  ⟨_, by decide, rfl⟩

/-- The font is intact in a reset state with other registers. -/
theorem fontIntact_resetWith (i : Word) : FontIntact { State.reset with i := i } := fun j h => by
  simp [State.readByte, Memory.read, State.reset, Memory.lookup, resetByte, h]

theorem witness_StepKeepsTheFont :
    ∃ t, State.reset.params.fontWritePolicy = .fault ∧ FontIntact { State.reset with i := 0x050 } ∧
      step { State.reset with i := 0x050 } = .next t :=
  ⟨_, rfl, fontIntact_resetWith _, rfl⟩

theorem witness_StepKeepsFaultRecordsTrue :
    ∃ t, RecordJustified State.reset ∧ step State.reset = .next t :=
  ⟨_, trivial, rfl⟩

theorem witness_EveryRunKeepsTheInvariants :
    ∃ t, runTxns [.powerOn, .load [0x60, 0x01], .step, .tickTimers] State.reset = .next t ∧
      MemCanonical State.reset ∧ AddressesBounded State.reset ∧
      State.reset.params.fontWritePolicy = .fault ∧ FontIntact { State.reset with i := 0 } :=
  ⟨_, rfl, rfl, by decide, rfl, fontIntact_resetWith _⟩

theorem witness_OnlyTheNamedInstructionsWrite :
    ∃ t, exec (.ldI 0x300) State.reset = .next t ∧ t.i ≠ State.reset.i :=
  ⟨_, rfl, by decide⟩

theorem witness_OnlyTheNamedInstructionsWrite_registers :
    ∃ t u w, exec (.ldImm 0xF 1) State.reset = .next t ∧ t.getV 0xF ≠ State.reset.getV 0xF ∧
      exec (.jp 0x204) State.reset = .next u ∧ u.pc ≠ State.reset.pc + 2 ∧
      exec .ret State.reset = .next w ∧ w.execState ≠ State.reset.execState :=
  ⟨_, _, _, rfl, by decide, rfl, by decide, rfl, by decide⟩

theorem witness_OnlyFlagWritersChangeVF :
    ∃ t, exec (.ldImm 0xF 1) State.reset = .next t ∧ t.getV 0xF#4 ≠ State.reset.getV 0xF#4 :=
  ⟨_, rfl, by decide⟩

theorem witness_SoundTimerAndDirtyAreNeverRead :
    ∃ t, step (at' State.reset [] 0xF018) = .next t :=
  ⟨_, rfl⟩

theorem witness_CallPushesAndReturnPops :
    0 < ({ State.reset with sp := 16 }).sp.val ∧ ({ State.reset with sp := 15 }).sp.val < 16 :=
  by decide

theorem witness_StackErrorsAtTheLimits :
    State.reset.sp.val = 0 ∧ ({ State.reset with sp := 16 }).sp.val = 16 :=
  by decide

theorem witness_ReturnResumesAfterTheCall :
    ∃ t, State.reset.sp.val < 16 ∧ exec (.call 0x300) State.reset = .next t ∧
      (t.setV 0 7).stack = t.stack ∧ (t.setV 0 7).sp = t.sp :=
  ⟨_, by decide, rfl, rfl, rfl⟩

theorem witness_SkipsTestTheirCondition : (1 : Nibble) ≠ 0 ∧ (0xF : Nibble) ≠ 0 := by decide

theorem witness_AddSetsCarry :
    (3 : Nibble) ≠ 0xF#4 ∧ (4 : Nibble) ≠ 3 ∧ (4 : Nibble) ≠ 0xF#4 :=
  by decide

theorem witness_LoadsAndImmediateAddSetNoFlag : (0xF#4 : Nibble) ≠ 0xE#4 := by decide

theorem witness_BitwiseOpsLeaveVF : (0xF#4 : Nibble) ≠ 3#4 ∧ (7 : Nat) < 8 := by decide

theorem witness_SubtractionsSetNotBorrow :
    (0#4 : Nibble) ≠ 0xF#4 ∧ (1#4 : Nibble) ≠ 0#4 ∧ (1#4 : Nibble) ≠ 0xF#4 :=
  by decide

theorem witness_ShiftsKeepTheBitShiftedOut :
    (6#4 : Nibble) ≠ 0xF#4 ∧ (0xE#4 : Nibble) ≠ 6#4 ∧ (0xE#4 : Nibble) ≠ 0xF#4 :=
  by decide

theorem witness_RandomIsMasked : (0xF#4 : Nibble) ≠ 5#4 := by decide

theorem witness_ClearScreenSetsDirty : (63 : Nat) < 64 ∧ (31 : Nat) < 32 := by decide

theorem witness_DelayTimerIsReadAndWritten : (0xF#4 : Nibble) ≠ 3#4 := by decide

theorem witness_InitializeResetsPcIndexStackAndFont :
    inFontRegion State.reset.params 0x04F = false ∧ inFontRegion State.reset.params 0x0A0 = false :=
  by decide

theorem witness_FontAddressPointsAtTheGlyph :
    FontIntact { State.reset with i := 0 } :=
  fontIntact_resetWith 0

theorem witness_DecimalDigitsAreStored :
    let s := { State.reset with i := 0xFFD }
    ∀ j, j < 3 → s.i.toNat + j ≤ 0xFFF ∧
      (s.params.fontWritePolicy = .fault → inFontRegion s.params (s.i.toNat + j) = false) :=
  by decide

theorem witness_DecimalDigitsAreStored_in_font :
    let s := { allowFont with i := 0x050 }
    ∀ j, j < 3 → s.i.toNat + j ≤ 0xFFF ∧
      (s.params.fontWritePolicy = .fault → inFontRegion s.params (s.i.toNat + j) = false) :=
  by decide

theorem witness_RegistersAreStored :
    let s := { State.reset with i := 0xFF0 }
    ∀ j, j ≤ (0xF : Nibble).toNat → s.i.toNat + j ≤ 0xFFF ∧
      (s.params.fontWritePolicy = .fault → inFontRegion s.params (s.i.toNat + j) = false) :=
  by decide

theorem witness_BlockWritesRaiseAtTheLowestAddress :
    let s := { State.reset with i := 0xFFE }
    (∀ l, l < 2 → s.i.toNat + l ≤ 0xFFF ∧
      (s.params.fontWritePolicy = .fault → inFontRegion s.params (s.i.toNat + l) = false)) ∧
      s.i.toNat + 2 > 0xFFF :=
  by decide

theorem witness_BlockWritesRaiseAtTheLowestAddress_font :
    let s := { State.reset with i := 0x04F }
    (∀ l, l < 1 → s.i.toNat + l ≤ 0xFFF ∧
      (s.params.fontWritePolicy = .fault → inFontRegion s.params (s.i.toNat + l) = false)) ∧
      s.i.toNat + 1 ≤ 0xFFF ∧ s.params.fontWritePolicy = .fault ∧
      inFontRegion s.params (s.i.toNat + 1) = true :=
  by decide

theorem witness_RegistersAreLoaded :
    ({ State.reset with i := 0xFF0 }).i.toNat + (0xF : Nibble).toNat ≤ 0xFFF :=
  by decide

theorem witness_BlockReadsRaiseAtTheLowestAddress :
    ({ State.reset with i := 0xFF1 }).i.toNat + (0xF : Nibble).toNat > 0xFFF ∧ 0 < (2 : Nibble).toNat ∧
      ({ State.reset with i := 0xFFF }).i.toNat + (2 : Nibble).toNat > 0x1000 :=
  by decide

theorem witness_StoreThenLoadRestoresRegisters :
    let s := { State.reset with i := 0x400 }
    ∃ t, exec (.stRegs 3) s = .next t ∧ t.execState = .executing ∧ (t.setV 0 9).params = t.params ∧
      (t.setV 0 9).mem = t.mem ∧ (t.setV 0 9).i = t.i :=
  ⟨_, rfl, rfl, rfl, rfl, rfl⟩

theorem witness_FetchSeesEarlierStores :
    let s := { State.reset with i := 0x20A }
    ∃ t, 1 ≤ (1 : Nibble).toNat ∧ exec (.stRegs 1) s = .next t ∧ t.execState = .executing ∧
      (t.setPc 0x20A).params = t.params ∧ (t.setPc 0x20A).mem = t.mem ∧ (t.setPc 0x20A).pc = s.i :=
  ⟨_, by decide, rfl, rfl, rfl, rfl, rfl⟩

theorem witness_DrawXorsTheSprite :
    (0 : Nibble).toNat = 0 ∨ ({ State.reset with i := 0x1000 }).i.toNat + (0 : Nibble).toNat ≤ 0x1000 :=
  by decide

theorem witness_DrawXorsTheSprite_to_the_end :
    ({ State.reset with i := 0xFF1 }).i.toNat + (0xF : Nibble).toNat ≤ 0x1000 :=
  by decide

theorem witness_DrawingTwiceRestoresTheScreen :
    let s := { State.reset with i := 0x050 }
    ∃ t, s.i.toNat + (5 : Nibble).toNat ≤ 0x1000 ∧ exec (.drw 0 0 5) s = .next t ∧
      t.params = s.params ∧ t.mem = s.mem ∧ t.i = s.i ∧ t.getV 0 = s.getV 0 ∧ s.fb = Frame.blank :=
  ⟨_, by decide, rfl, rfl, rfl, rfl, rfl, rfl⟩

theorem witness_KeySkipsTestTheLatch :
    ((State.reset.setV 1 0xF).getV 1).toNat ≤ 0xF ∧ maskKeys.params.keyIndexPolicy = .mask :=
  by decide

theorem witness_KeyIndexOutOfRangeRaises :
    0xF < ((State.reset.setV 1 0x10).getV 1).toNat ∧ (State.reset.setV 1 0x10).params.keyIndexPolicy = .fault :=
  by decide

theorem witness_OnlyAPressResolvesTheKeyWait :
    (State.reset.setExecState (.waitingForKey 1)).execState = .waitingForKey 1 ∧
      State.reset.execState = .executing ∧ isHalted (State.reset.raise .decodeError 0) = true :=
  by decide

theorem witness_TickCountsDownAndBeepsOnce :
    isHalted (State.reset.raise .decodeError 0) = true ∧ isHalted State.reset = false :=
  by decide

theorem witness_LoadPlacesTheImage :
    (List.replicate 3585 (0xAA : Byte)).length > 3584 ∧ (List.replicate 3584 (0xAA : Byte)).length ≤ 3584 :=
  by
  simp only [List.length_replicate]
  decide

theorem witness_PowerOnLeavesTheResetValues :
    ∃ t r, Txn.powerOn.apply (State.reset.raise .decodeError 0) = .next (t, r) :=
  ⟨_, _, rfl⟩

theorem witness_OnlyPowerOnLeavesHalted :
    ∃ t r, isHalted (State.reset.raise .decodeError 0) = true ∧
      Txn.step.apply (State.reset.raise .decodeError 0) = .next (t, r) :=
  ⟨_, _, by decide, rfl⟩

theorem witness_StepChangesNothingWhenSuspended_halted :
    (State.reset.raise .pcFault 0x201).execState = .halted .pcFault 0x201 := by decide

/-- Waiting for a key, with one tick left on the delay timer. -/
def waitingRun (n : Nat) : State :=
  { State.reset with execState := .waitingForKey 1, dt := if n ≤ 1 then 1 else 0 }

theorem witness_FairRunsStepAndDrainTheTimers :
    let ts : Nat → Txn := fun n => if n % 2 = 0 then .step else .tickTimers
    IsRun ts waitingRun ∧ Fair ts ∧ (waitingRun 0).execState = .waitingForKey 1 ∧
      ∀ m, 0 ≤ m → ts m ≠ .powerOn ∧ ∀ k, ts m ≠ .setKey k true := by
  refine ⟨fun n => ?_, fair_alternating, rfl, fun m _ => ?_⟩
  · match n with
    | 0 => exact ⟨_, rfl⟩
    | 1 => exact ⟨_, rfl⟩
    | n + 2 => rcases Nat.mod_two_eq_zero_or_one n with h | h <;> simp only [Nat.add_mod_right, h] <;> exact ⟨_, rfl⟩
  · dsimp only
    split <;> simp

/-- R240: the record of a bounds error is the lowest offending address of the block at `I`. -/
theorem test_bounds_record :
    (after (at' { State.reset with i := 0xFFE } [] 0xFF65)).map (·.execState) =
      some (.halted .boundsError 0x1000) ∧
    (after (at' { State.reset with i := 0x1234 } [] 0xFF65)).map (·.execState) =
      some (.halted .boundsError 0x1234) := by decide

end Sys2Proof.Tests
end

section
/-! PROOFS. The instruction cycle (spec/40_cycle.md). -/
namespace Sys2Proof.Proofs.Cycle

open Sys2Proof Sys2Proof.Machine

/-- Settles O6: the fetched word joins the two bytes at `pc`, the one at `pc` on top (R103), and
`wordOfBytes_toNat` gives the number of such a word. -/
theorem fetchIsBigEndian : Obligations.FetchIsBigEndian := by
  intro s
  calc s.fetchWord.toNat
      = (wordOfBytes (s.readByte s.pc.toNat) (s.readByte (s.pc.toNat + 1))).toNat := rfl
    _ = 256 * (s.readByte s.pc.toNat).toNat + (s.readByte (s.pc.toNat + 1)).toNat :=
      wordOfBytes_toNat _ _

end Sys2Proof.Proofs.Cycle
end

section
/-! PROOFS. A word put together from its fields, as a number: one lemma per format (spec/30_encoding.md R72). -/
namespace Sys2Proof.Proofs.Words

open Sys2Proof

/-- Two bit vectors side by side weigh the left one by the width of the right one. -/
theorem append_toNat {m n : Nat} (a : BitVec m) (b : BitVec n) :
    (a ++ b).toNat = 2 ^ n * a.toNat + b.toNat := by
  rw [BitVec.toNat_append, Nat.shiftLeft_eq, Nat.mul_comm]
  exact (Nat.two_pow_add_eq_or_of_lt b.isLt a.toNat).symm

theorem word_nnn_toNat (o : Nibble) (nnn : Addr12) :
    (o ++ nnn : Word).toNat = 4096 * o.toNat + nnn.toNat :=
  append_toNat o nnn

theorem word_xnn_toNat (o x : Nibble) (nn : Byte) :
    (o ++ x ++ nn : Word).toNat = 4096 * o.toNat + 256 * x.toNat + nn.toNat := by
  have hword := append_toNat (o ++ x) nn
  have hox := append_toNat o x
  omega

theorem word_xyn_toNat (o x y n : Nibble) :
    (o ++ x ++ y ++ n : Word).toNat = 4096 * o.toNat + 256 * x.toNat + 16 * y.toNat + n.toNat := by
  have hword := append_toNat (o ++ x ++ y) n
  have hoxy := append_toNat (o ++ x) y
  have hox := append_toNat o x
  omega

end Sys2Proof.Proofs.Words
end

section
/-! PROOFS. Jumps and skips (spec/41_control_flow.md). -/
namespace Sys2Proof.Proofs.ControlFlow

open Sys2Proof Sys2Proof.Machine Sys2Proof.Proofs.Words

/-- What a skip instruction answers: `skip_if` of a proposition, with `npc` and `npc + 2` counted from `pc`
(R14). -/
theorem next_skipIf_decide (s : State) (p : Prop) [Decidable p] :
    (.next (s.skipIf (decide p)) : Result) = .next { s with pc := if p then s.pc + 4 else s.pc + 2 } := by
  have hskip : s.pc + 2 + 2 = s.pc + 4 := BitVec.add_assoc s.pc 2 2
  simp only [State.skipIf, State.setPc, npc_eq, decide_eq_true_eq, hskip]

/-- The families 0x5 and 0x9 decode only with low nibble 0 (R125, R126). -/
theorem decodeWord_eq_none_of_fieldN_ne_zero {w : Word} (ho : fieldOp w = 0x5#4 ∨ fieldOp w = 0x9#4)
    (hn : fieldN w ≠ 0) : decodeWord w = none := by
  obtain ho | ho := ho <;> simp only [decodeWord, ho] <;> exact if_neg hn

/-- Settles O26: `exec` sets `pc` to `zextAddr nnn`, which has the number of `nnn`. -/
theorem jumpSetsPc : Obligations.JumpSetsPc := by
  intro nnn s
  exact ⟨word_nnn_toNat 0x1#4 nnn, s.setPc (zextAddr nnn), rfl, zextAddr_toNat nnn, rfl⟩

/-- Settles O28: each skip is `skip_if` of its condition, and the low nibble of a word beside 5XY0 or 9XY0 is
not the 0 its family asks for. -/
theorem skipsTestTheirCondition : Obligations.SkipsTestTheirCondition := by
  intro x y nn s
  refine ⟨next_skipIf_decide s _, next_skipIf_decide s _, next_skipIf_decide s _, next_skipIf_decide s _,
    word_xnn_toNat 0x3#4 x nn, word_xnn_toNat 0x4#4 x nn, word_xyn_toNat 0x5#4 x y 0x0#4,
    word_xyn_toNat 0x9#4 x y 0x0#4, fun k hk => ⟨?_, ?_⟩⟩
  · exact decodeWord_eq_none_of_fieldN_ne_zero (.inl (fieldOp_xyn _ x y k)) (by rwa [fieldN_xyn])
  · exact decodeWord_eq_none_of_fieldN_ne_zero (.inr (fieldOp_xyn _ x y k)) (by rwa [fieldN_xyn])

end Sys2Proof.Proofs.ControlFlow
end

section
/-! PROOFS. The ALU (spec/42_alu.md). -/
namespace Sys2Proof.Proofs.Alu

open Sys2Proof Sys2Proof.Machine Sys2Proof.Proofs.Words

/-- The rule of the instructions that only write VX and set no flag (R141, R105): what holds of the value
written holds of VX afterwards, and nothing else but `pc` changes. -/
theorem next_setV_advance (s : State) (x : Nibble) {b : Byte} (P : Byte → Prop) (hb : P b) :
    ∃ t, (.next (s.setV x b).advance : Result) = .next t ∧ P (t.getV x) ∧
      (∀ z, z ≠ x → t.getV z = s.getV z) ∧ t = { s with v := t.v, pc := s.pc + 2 } := by
  refine ⟨_, rfl, ?_, fun z hz => ?_, rfl⟩
  · rwa [advance_getV, setV_getV, if_pos rfl]
  · rw [advance_getV, setV_getV, if_neg hz]

/-- The same rule for a value given bit by bit: `op` of the bits of VX and VY. -/
theorem next_setV_advance_bits (s : State) (x y : Nibble) {b : Byte} (op : Bool → Bool → Bool)
    (hb : ∀ k, b.getLsbD k = op ((s.getV x).getLsbD k) ((s.getV y).getLsbD k)) :
    ∃ t, (.next (s.setV x b).advance : Result) = .next t ∧
      (∀ k, k < 8 → (t.getV x).getLsbD k = op ((s.getV x).getLsbD k) ((s.getV y).getLsbD k)) ∧
      (∀ z, z ≠ x → t.getV z = s.getV z) ∧ t = { s with v := t.v, pc := s.pc + 2 } := by
  obtain ⟨t, hnext, hx, hframe⟩ := next_setV_advance s x (· = b) rfl
  exact ⟨t, hnext, fun k _ => hx ▸ hb k, hframe⟩

/-- A word of the family 0x8, the number of its operation joined to that of the family (R89). -/
theorem word_8xyn_toNat (x y n : Nibble) :
    (0x8#4 ++ x ++ y ++ n : Word).toNat = 0x8000 + n.toNat + 256 * x.toNat + 16 * y.toNat := by
  have hword : (0x8#4 ++ x ++ y ++ n : Word).toNat = 0x8000 + 256 * x.toNat + 16 * y.toNat + n.toNat :=
    word_xyn_toNat 0x8#4 x y n
  omega

/-- Settles O29: each word is its format's, and each instruction writes one value to VX; 7XNN writes
`addWrap`, the sum modulo 256. -/
theorem loadsAndImmediateAddSetNoFlag : Obligations.LoadsAndImmediateAddSetNoFlag := by
  intro x y nn s
  refine ⟨word_xnn_toNat 0x6#4 x nn, word_xnn_toNat 0x7#4 x nn, word_xyn_toNat 0x8#4 x y 0x0#4, ?_, ?_, ?_⟩
  · exact next_setV_advance s x (· = nn) rfl
  · exact next_setV_advance s x (·.toNat = ((s.getV x).toNat + nn.toNat) % 256) (addWrap_toNat _ _)
  · exact next_setV_advance s x (· = s.getV y) rfl

/-- Settles O30: each instruction writes one value to VX, the bit operation of VX and VY, whose bits are those
of its operands combined. -/
theorem bitwiseOpsLeaveVF : Obligations.BitwiseOpsLeaveVF := by
  intro x y s
  refine ⟨word_8xyn_toNat x y 0x1#4, word_8xyn_toNat x y 0x2#4, word_8xyn_toNat x y 0x3#4, ?_, ?_, ?_⟩
  · exact next_setV_advance_bits s x y or fun _ => BitVec.getLsbD_or
  · exact next_setV_advance_bits s x y and fun _ => BitVec.getLsbD_and
  · exact next_setV_advance_bits s x y xor fun _ => BitVec.getLsbD_xor

end Sys2Proof.Proofs.Alu
end

section
/-! PROOFS. The index register (spec/43_index_memory.md). -/
namespace Sys2Proof.Proofs.Index

open Sys2Proof Sys2Proof.Machine Sys2Proof.Proofs.Words

/-- Settles O35: `exec` sets `I` to `zextAddr nnn`, which has the number of `nnn` (R170), and `advance` moves
`pc` alone. -/
theorem loadIndexImmediate : Obligations.LoadIndexImmediate := by
  intro nnn s
  exact ⟨word_nnn_toNat 0xA#4 nnn, (s.setI (zextAddr nnn)).advance, rfl, zextAddr_toNat nnn, rfl⟩

end Sys2Proof.Proofs.Index
end

section
/-! PROOFS. The display (spec/44_display.md). -/
namespace Sys2Proof.Proofs.Display

open Sys2Proof Sys2Proof.Machine

/-- What 00E0 answers (R191): the blank frame is stored whatever the old one was, `dirty` is set
unconditionally, and `pc` moves to the next word. -/
theorem exec_cls (s : State) :
    exec .cls s = .next { s with fb := Frame.blank, dirty := true, pc := s.pc + 2 } := rfl

/-- Settles O45: `exec_cls` stores the frame `Frame.blank`, every pixel of which is 0. -/
theorem clearScreenSetsDirty : Obligations.ClearScreenSetsDirty :=
  ⟨rfl, fun s => ⟨_, exec_cls s, fun X Y _ _ => blank_pixel X Y, rfl⟩⟩

end Sys2Proof.Proofs.Display
end

section
/-! PROOFS. Timers (spec/45_timers_input.md). -/
namespace Sys2Proof.Proofs.Timers

open Sys2Proof Sys2Proof.Machine Sys2Proof.Proofs.Words Sys2Proof.Proofs.Alu

/-- A word of the family 0xF, the number of its low byte joined to that of the family (R89). -/
theorem word_Fxnn_toNat (x : Nibble) (nn : Byte) :
    (0xF#4 ++ x ++ nn : Word).toNat = 0xF000 + nn.toNat + 256 * x.toNat := by
  have hword : (0xF#4 ++ x ++ nn : Word).toNat = 0xF000 + 256 * x.toNat + nn.toNat :=
    word_xnn_toNat 0xF#4 x nn
  omega

/-- What FX15 answers (R215): `DT` takes the value of VX, and `pc` moves to the next word. -/
theorem exec_ldDtVx (x : Nibble) (s : State) :
    exec (.ldDtVx x) s = .next { s with dt := s.getV x, pc := s.pc + 2 } := rfl

/-- Settles O50: FX07 is one of the instructions that only write VX, here the value of `DT`, and FX15 stores
VX in `DT` and leaves the registers alone. -/
theorem delayTimerIsReadAndWritten : Obligations.DelayTimerIsReadAndWritten := by
  intro x s
  refine ⟨word_Fxnn_toNat x 0x07#8, word_Fxnn_toNat x 0x15#8, ?_, exec_ldDtVx x s⟩
  exact next_setV_advance s x (· = s.dt) rfl

end Sys2Proof.Proofs.Timers
end

section
/-! PROOFS. Decoding and encoding (spec/30_encoding.md). -/
namespace Sys2Proof.Proofs.Encoding

open Sys2Proof Sys2Proof.Machine Sys2Proof.Laws

/-! ### Decoding what was encoded -/

/-- An instruction of family 0x8, by the low nibble of its word (R80). -/
theorem decodeWord_family8 (x y n : Nibble) :
    decodeWord (0x8#4 ++ x ++ y ++ n) = decodeFamily8 (0x8#4 ++ x ++ y ++ n) := by
  simp [decodeWord]

/-- Settles O1: by the format of the instruction's word, whose fields are the operands it was put together
from; the high nibble selects the family, and the low nibble or byte the instruction in it. -/
theorem decodeOfEncodeIsTheInstruction : Obligations.DecodeOfEncodeIsTheInstruction := by
  intro i
  cases i
  case cls => rfl
  case ret => rfl
  case jp | call | ldI | jpV0 => simp [encode, decodeWord]
  case seImm | sneImm | ldImm | addImm | rnd => simp [encode, decodeWord]
  case seReg | sneReg | drw => simp [encode, decodeWord]
  case ldReg | orReg | andReg | xorReg | addReg | sub | shr | subn | shl =>
    simp [encode, decodeWord_family8, decodeFamily8]
  case skp | sknp => simp [encode, decodeWord, decodeFamilyE]
  case ldVxDt | ldVxK | ldDtVx | ldStVx | addIVx | ldFVx | ldBVx | stRegs | ldRegs =>
    simp [encode, decodeWord, decodeFamilyF]

/-! ### Encoding what was decoded -/

theorem word_of_op_nnn {w : Word} {o : Nibble} (ho : fieldOp w = o) : (o ++ fieldNNN w : Word) = w := by
  rw [← ho, word_eq_nnn]

theorem word_of_op_xnn {w : Word} {o : Nibble} {nn : Byte} (ho : fieldOp w = o) (hn : fieldNN w = nn) :
    (o ++ fieldX w ++ nn : Word) = w := by
  rw [← ho, ← hn, word_eq_xnn]

theorem word_of_op_xyn {w : Word} {o n : Nibble} (ho : fieldOp w = o) (hn : fieldN w = n) :
    (o ++ fieldX w ++ fieldY w ++ n : Word) = w := by
  rw [← ho, ← hn, word_eq_xyn]

theorem encode_of_decodeFamily0 {w : Word} {i : Instr} (h : decodeFamily0 w = some i) : encode i = w := by
  unfold decodeFamily0 at h
  split_ifs at h with h0 h1 <;> (cases h; simp [encode, *])

theorem encode_of_decodeFamily8 {w : Word} {i : Instr} (ho : fieldOp w = 0x8#4)
    (h : decodeFamily8 w = some i) : encode i = w := by
  unfold decodeFamily8 at h
  split at h <;> cases h
  all_goals
    rename_i hn
    exact word_of_op_xyn ho (BitVec.eq_of_toNat_eq hn)

theorem encode_of_decodeFamilyE {w : Word} {i : Instr} (ho : fieldOp w = 0xE#4)
    (h : decodeFamilyE w = some i) : encode i = w := by
  unfold decodeFamilyE at h
  split_ifs at h with hskp hsknp <;> cases h
  · exact word_of_op_xnn ho hskp
  · exact word_of_op_xnn ho hsknp

theorem encode_of_decodeFamilyF {w : Word} {i : Instr} (ho : fieldOp w = 0xF#4)
    (h : decodeFamilyF w = some i) : encode i = w := by
  unfold decodeFamilyF at h
  iterate 9
    split at h
    next hnn =>
      cases h
      exact word_of_op_xnn ho hnn
  cases h

/-- Settles O2: by the family of the word. A word is its fields put together, and a family fixes the fields
that are not operands. -/
theorem encodeOfDecodeIsTheWord : Obligations.EncodeOfDecodeIsTheWord := by
  intro w i h
  have hop : ∀ {k : Nat} (_ : k < 16), (fieldOp w).toNat = k → fieldOp w = BitVec.ofNat 4 k :=
    fun hk ho => BitVec.eq_of_toNat_eq (by simp [ho, Nat.mod_eq_of_lt hk])
  unfold decodeWord at h
  split at h
  case h_1 => exact encode_of_decodeFamily0 h
  case h_9 ho => exact encode_of_decodeFamily8 (hop (by decide) ho) h
  case h_15 ho => exact encode_of_decodeFamilyE (hop (by decide) ho) h
  case h_16 =>
    have hlt := (fieldOp w).isLt
    simp only [imp_false] at *
    exact encode_of_decodeFamilyF (hop (k := 15) (by decide) (by omega)) h
  case h_6 ho | h_10 ho =>
    split_ifs at h with hn
    cases h
    exact word_of_op_xyn (hop (by decide) ho) hn
  case h_14 ho =>
    cases h
    exact word_of_op_xyn (hop (by decide) ho) rfl
  case h_2 ho | h_3 ho | h_11 ho | h_12 ho =>
    cases h
    exact word_of_op_nnn (hop (by decide) ho)
  case h_4 ho | h_5 ho | h_7 ho | h_8 ho | h_13 ho =>
    cases h
    exact word_of_op_xnn (hop (by decide) ho) rfl

/-! ### The opcode table -/

/-- A field that the mask keeps whole is the field of the pattern. -/
theorem field_of_mask {w m b : Word} (h : w &&& m = b) {s n : Nat} (hm : m.extractLsb' s n = BitVec.allOnes n) :
    w.extractLsb' s n = b.extractLsb' s n := by
  rw [← h, BitVec.extractLsb'_and, hm, BitVec.and_allOnes]

/-- No two rows of the table bear one name. -/
theorem opcodeTable_name_inj : ∀ r ∈ opcodeTable, ∀ q ∈ opcodeTable, r.name = q.name → r = q := by decide

/-- Every row's mask keeps the family. -/
theorem opcodeTable_mask_op : ∀ r ∈ opcodeTable, fieldOp r.mask = BitVec.allOnes 4 := by decide

/-- A word that a row accepts decodes to an instruction of the row: the row's mask keeps the family and the
sub-field that the decoder dispatches on. -/
theorem decodes_of_accepts {w : Word} {r : OpcodeRow} (hr : r ∈ opcodeTable) (h : w &&& r.mask = r.bits) :
    ∃ i, decodeWord w = some i ∧ i.mnemonic = r.name := by
  have ho : fieldOp w = fieldOp r.bits := field_of_mask h (opcodeTable_mask_op r hr)
  have hn : fieldN r.mask = BitVec.allOnes 4 → fieldN w = fieldN r.bits := field_of_mask h
  have hnn : fieldNN r.mask = BitVec.allOnes 8 → fieldNN w = fieldNN r.bits := field_of_mask h
  simp only [opcodeTable, List.mem_append] at hr
  obtain (hr | hr) | hr := hr
  -- families 0 to 7: the two whole words of family 0, 5XY0 with its low nibble, and one row each
  · fin_cases hr
    pick_goal 7
    · simp only [decodeWord, ho, hn rfl]
      exact ⟨_, rfl, rfl⟩
    iterate 2
      · obtain rfl := (BitVec.and_allOnes (x := w)).symm.trans h
        exact ⟨_, rfl, rfl⟩
    all_goals
      simp only [decodeWord, ho]
      exact ⟨_, rfl, rfl⟩
  -- families 8 to D: family 8 and 9XY0 with their low nibble, and one row each
  · fin_cases hr
    iterate 10
      · simp only [decodeWord, decodeFamily8, ho, hn rfl]
        exact ⟨_, rfl, rfl⟩
    all_goals
      simp only [decodeWord, ho]
      exact ⟨_, rfl, rfl⟩
  -- families E and F: the low byte
  · fin_cases hr
    all_goals
      simp only [decodeWord, decodeFamilyE, decodeFamilyF, ho, hnn rfl]
      exact ⟨_, rfl, rfl⟩

/-- The word of an instruction is accepted by the row of its name, one lemma of Laws/PerInstr.lean for each. -/
theorem encode_accepted : ∀ i : Instr, EncodesToItsRow.Statement i
  | .cls => EncodesToItsRow.cls
  | .ret => EncodesToItsRow.ret
  | .jp nnn => EncodesToItsRow.jp nnn
  | .call nnn => EncodesToItsRow.call nnn
  | .seImm x nn => EncodesToItsRow.seImm x nn
  | .sneImm x nn => EncodesToItsRow.sneImm x nn
  | .seReg x y => EncodesToItsRow.seReg x y
  | .ldImm x nn => EncodesToItsRow.ldImm x nn
  | .addImm x nn => EncodesToItsRow.addImm x nn
  | .ldReg x y => EncodesToItsRow.ldReg x y
  | .orReg x y => EncodesToItsRow.orReg x y
  | .andReg x y => EncodesToItsRow.andReg x y
  | .xorReg x y => EncodesToItsRow.xorReg x y
  | .addReg x y => EncodesToItsRow.addReg x y
  | .sub x y => EncodesToItsRow.sub x y
  | .shr x y => EncodesToItsRow.shr x y
  | .subn x y => EncodesToItsRow.subn x y
  | .shl x y => EncodesToItsRow.shl x y
  | .sneReg x y => EncodesToItsRow.sneReg x y
  | .ldI nnn => EncodesToItsRow.ldI nnn
  | .jpV0 nnn => EncodesToItsRow.jpV0 nnn
  | .rnd x nn => EncodesToItsRow.rnd x nn
  | .drw x y n => EncodesToItsRow.drw x y n
  | .skp x => EncodesToItsRow.skp x
  | .sknp x => EncodesToItsRow.sknp x
  | .ldVxDt x => EncodesToItsRow.ldVxDt x
  | .ldVxK x => EncodesToItsRow.ldVxK x
  | .ldDtVx x => EncodesToItsRow.ldDtVx x
  | .ldStVx x => EncodesToItsRow.ldStVx x
  | .addIVx x => EncodesToItsRow.addIVx x
  | .ldFVx x => EncodesToItsRow.ldFVx x
  | .ldBVx x => EncodesToItsRow.ldBVx x
  | .stRegs x => EncodesToItsRow.stRegs x
  | .ldRegs x => EncodesToItsRow.ldRegs x

/-- Settles O3: a word that a row accepts decodes by the row's fields; the other way round, a decoded word is
the encoding of its instruction, which the row of that name accepts. -/
theorem decoderAgreesWithOpcodeTable : Obligations.DecoderAgreesWithOpcodeTable := by
  intro w r hr
  refine ⟨decodes_of_accepts hr, fun ⟨i, hi, hname⟩ => ?_⟩
  obtain ⟨q, hq, hqname, hacc⟩ := encode_accepted i
  obtain rfl := opcodeTable_name_inj q hq r hr (hqname.trans hname)
  rw [encodeOfDecodeIsTheWord w i hi] at hacc
  exact beq_iff_eq.mp hacc

/-! ### Illegal words -/

theorem fieldOp_toNat (w : Word) : (fieldOp w).toNat = w.toNat / 4096 := by
  have hw := w.isLt
  simp [fieldOp, Nat.shiftRight_eq_div_pow]
  omega

theorem fieldN_toNat (w : Word) : (fieldN w).toNat = w.toNat % 16 := by
  simp [fieldN]

theorem fieldN_eq_zero (w : Word) : fieldN w = 0 ↔ w.toNat % 16 = 0 := by
  rw [← fieldN_toNat, ← BitVec.toNat_inj]
  rfl

theorem fieldNN_eq (w : Word) (b : Byte) : fieldNN w = b ↔ w.toNat % 256 = b.toNat := by
  simp [fieldNN, ← BitVec.toNat_inj]

/-- A chain of tests fails when each of them fails. -/
theorem ite_some_eq_none_iff (c : Prop) [Decidable c] (i : Instr) (o : Option Instr) :
    (if c then some i else o) = none ↔ ¬c ∧ o = none := by
  split_ifs with h <;> simp [h]

theorem decodeFamily0_eq_none (w : Word) : decodeFamily0 w = none ↔ w ≠ 0x00E0 ∧ w ≠ 0x00EE := by
  simp only [decodeFamily0, ite_some_eq_none_iff, and_true]

theorem decodeFamily8_eq_none (w : Word) :
    decodeFamily8 w = none ↔ w.toNat % 16 ∈ [0x8, 0x9, 0xA, 0xB, 0xC, 0xD, 0xF] := by
  have hlt := Nat.mod_lt w.toNat (show 16 > 0 by decide)
  simp only [decodeFamily8, fieldN_toNat]
  generalize w.toNat % 16 = n at hlt
  interval_cases n <;> simp

theorem decodeFamilyE_eq_none (w : Word) :
    decodeFamilyE w = none ↔ w.toNat % 256 ∉ [0x9E, 0xA1] := by
  simp [decodeFamilyE, fieldNN_eq, ite_some_eq_none_iff]

theorem decodeFamilyF_eq_none (w : Word) :
    decodeFamilyF w = none ↔
      w.toNat % 256 ∉ [0x07, 0x0A, 0x15, 0x18, 0x1E, 0x29, 0x33, 0x55, 0x65] := by
  simp [decodeFamilyF, fieldNN_eq, ite_some_eq_none_iff]

/-- Settles O4: by the family of the word, each family's illegal words being those its decoder refuses. -/
theorem illegalWordsAreExactlyTheListed : Obligations.IllegalWordsAreExactlyTheListed := by
  intro w
  have hlt : w.toNat / 4096 < 16 := fieldOp_toNat w ▸ (fieldOp w).isLt
  simp only [decodeWord, fieldOp_toNat, fieldN_eq_zero]
  generalize w.toNat / 4096 = o at hlt
  interval_cases o <;>
    simp [decodeFamily0_eq_none, decodeFamily8_eq_none, decodeFamilyE_eq_none, decodeFamilyF_eq_none]

/-- Settles O5: the decoder runs on each of the nineteen words. -/
theorem wordsOfTheSpecDecode : Obligations.WordsOfTheSpecDecode := by
  unfold Obligations.WordsOfTheSpecDecode
  decide

end Sys2Proof.Proofs.Encoding
end

section
/-! PROOFS. Every instruction is a check and an effect: the fatal error it raises, if any, and the state it computes
when it raises none. What an instruction can do is then said once, field by field. -/
namespace Sys2Proof.Proofs.Effect

open Sys2Proof Sys2Proof.Machine Sys2Proof.Safety

/-- The fatal error of a key skip: VX names no key (R212). -/
def keyFault (s : State) (x : Nibble) : Option (Fault × Word) :=
  if keyIndex s.params (s.getV x) = none then some (.keyIndexFault, zextByte (s.getV x)) else none

/-- The fatal error an instruction raises, with its record, or nothing (R241). -/
def fatal (i : Instr) (s : State) : Option (Fault × Word) :=
  match i with
  | .ret => if s.sp.val = 0 then some (.stackUnderflow, s.pc) else none
  | .call _ => if s.sp.val = 16 then some (.stackOverflow, s.pc) else none
  | .drw _ _ n => checkReads s.baseAddr n.toNat
  | .skp x | .sknp x => keyFault s x
  | .ldBVx _ => checkWrites s.params s.baseAddr 3
  | .stRegs x => checkWrites s.params s.baseAddr (x.toNat + 1)
  | .ldRegs x => checkReads s.baseAddr (x.toNat + 1)
  | _ => none

/-- The state an instruction computes when it raises nothing. -/
def effect (i : Instr) (s : State) : State :=
  match i with
  | .cls => ((s.setFrame Frame.blank).setDirty true).advance
  | .ret => { s with sp := ⟨s.sp.val - 1, by omega⟩, pc := s.stack[s.sp.val - 1]'(by omega) }
  | .jp nnn => s.setPc (zextAddr nnn)
  | .call nnn =>
    { s with
      stack := s.stack.setIfInBounds s.sp.val s.npc
      sp := ⟨min (s.sp.val + 1) 16, by omega⟩
      pc := zextAddr nnn }
  | .seImm x nn => s.skipIf (decide (s.getV x = nn))
  | .sneImm x nn => s.skipIf (decide (s.getV x ≠ nn))
  | .seReg x y => s.skipIf (decide (s.getV x = s.getV y))
  | .ldImm x nn => (s.setV x nn).advance
  | .addImm x nn => (s.setV x (addWrap (s.getV x) nn)).advance
  | .ldReg x y => (s.setV x (s.getV y)).advance
  | .orReg x y => (s.setV x (s.getV x ||| s.getV y)).advance
  | .andReg x y => (s.setV x (s.getV x &&& s.getV y)).advance
  | .xorReg x y => (s.setV x (s.getV x ^^^ s.getV y)).advance
  | .addReg x y =>
    (s.setVWithFlag x (addWrap (s.getV x) (s.getV y)) (carryFlag (s.getV x) (s.getV y))).advance
  | .sub x y =>
    (s.setVWithFlag x (subWrap (s.getV x) (s.getV y)) (noBorrowFlag (s.getV x) (s.getV y))).advance
  | .shr x _ => (s.setVWithFlag x (shiftRight1 (s.getV x)) (lowBitFlag (s.getV x))).advance
  | .subn x y =>
    (s.setVWithFlag x (subWrap (s.getV y) (s.getV x)) (noBorrowFlag (s.getV y) (s.getV x))).advance
  | .shl x _ => (s.setVWithFlag x (shiftLeft1 (s.getV x)) (highBitFlag (s.getV x))).advance
  | .sneReg x y => s.skipIf (decide (s.getV x ≠ s.getV y))
  | .ldI nnn => (s.setI (zextAddr nnn)).advance
  | .jpV0 nnn => s.setPc (zextByte (s.getV 0#4) + zextAddr nnn)
  | .rnd x nn => (s.drawRnd.2.setV x (s.drawRnd.1 &&& nn)).advance
  | .drw x y n =>
    (((s.setFrame (s.drawn x y n).1).setV 0xF#4 (flagOf (s.drawn x y n).2)).setDirty true).advance
  | .skp x => s.skipIf (s.keyPressed ((s.getV x).setWidth 4))
  | .sknp x => s.skipIf (!s.keyPressed ((s.getV x).setWidth 4))
  | .ldVxDt x => (s.setV x s.dt).advance
  | .ldVxK x => (s.setExecState (.waitingForKey x)).advance
  | .ldDtVx x => (s.setDt (s.getV x)).advance
  | .ldStVx x => (s.setSt (s.getV x)).advance
  | .addIVx x => (s.setI (BitVec.ofNat 16 ((s.i.toNat + (s.getV x).toNat) % 65536))).advance
  | .ldFVx x => (s.setI (glyphAddr s.params (s.getV x))).advance
  | .ldBVx x => (s.storeBytes s.baseAddr (decimalDigits (s.getV x))).advance
  | .stRegs x => (s.storeBytes s.baseAddr (s.regsUpTo x)).advance
  | .ldRegs x => (s.loadRegs s.baseAddr (x.toNat + 1)).advance

/-- A key index that is there is the low nibble (R212). -/
theorem keyIndex_eq (p : Params) (v : Byte) : keyIndex p v = none ∨ keyIndex p v = some (v.setWidth 4) := by
  rcases Nat.lt_or_ge 0xF v.toNat with h | h
  · rw [keyIndex_of_gt h]
    cases p.keyIndexPolicy
    · exact .inl rfl
    · exact .inr rfl
  · exact .inr (keyIndex_of_le h)

/-- The meaning of every instruction: its fatal error if there is one, else its effect. -/
theorem exec_eq_checked (i : Instr) (s : State) : exec i s = s.checked (fatal i s) (effect i s) := by
  cases i
  case ret =>
    rcases Nat.eq_zero_or_pos s.sp.val with h | h
    · simp [exec, execRet, fatal, State.checked, (pop_eq_none s).mpr h, h]
    · simp [exec, execRet, fatal, State.checked, pop_of_pos h, Nat.ne_of_gt h]
      rfl
  case call =>
    by_cases h : s.sp.val = 16
    · simp [exec, execCall, fatal, State.checked, (push_eq_none s s.npc).mpr h, h]
    · have hlt : s.sp.val < 16 := by omega
      have hstack : s.stack.set s.sp.val s.npc hlt = s.stack.setIfInBounds s.sp.val s.npc :=
        Vector.ext fun j hj => by simp [Vector.getElem_set, Vector.getElem_setIfInBounds]
      simp [exec, execCall, fatal, State.checked, push_of_lt s.npc hlt, h, effect, State.setPc, hstack,
        Nat.min_eq_left (Nat.succ_le_of_lt hlt)]
  case skp x | sknp x =>
    rcases keyIndex_eq s.params (s.getV x) with h | h <;>
      simp [exec, execSkp, execSknp, fatal, keyFault, State.checked, effect, h]
  all_goals rfl

/-- What an instruction can answer. -/
theorem exec_cases {i : Instr} {s t : State} (h : exec i s = .next t) :
    (∃ f w, fatal i s = some (f, w) ∧ t = s.raise f w) ∨ (fatal i s = none ∧ t = effect i s) :=
  checked_cases ((exec_eq_checked i s).symm.trans h)

theorem exec_of_fatal {i : Instr} {s : State} {f : Fault} {w : Word} (h : fatal i s = some (f, w)) :
    exec i s = .next (s.raise f w) := by
  rw [exec_eq_checked, h]
  rfl

theorem exec_of_not_fatal {i : Instr} {s : State} (h : fatal i s = none) : exec i s = .next (effect i s) := by
  rw [exec_eq_checked, h]
  rfl

/-! ### The effect, field by field -/

section
variable (i : Instr) (s : State)

theorem effect_params : (effect i s).params = s.params := by
  cases i <;> simp [effect]

theorem effect_key : (effect i s).key = s.key := by
  cases i <;> simp [effect]

theorem effect_i : (effect i s).i = s.i ∨ i.mnemonic ∈ [Mnemonic.LD_I, .ADD_I_VX, .LD_F_VX] := by
  cases i <;> simp [effect, Instr.mnemonic]

theorem effect_sp : (effect i s).sp = s.sp ∨ i.mnemonic ∈ [Mnemonic.RET, .CALL] := by
  cases i <;> simp [effect, Instr.mnemonic]

theorem effect_stack : (effect i s).stack = s.stack ∨ i.mnemonic = .CALL := by
  cases i <;> simp [effect, Instr.mnemonic]

theorem effect_dt : (effect i s).dt = s.dt ∨ i.mnemonic = .LD_DT_VX := by
  cases i <;> simp [effect, Instr.mnemonic]

theorem effect_st : (effect i s).st = s.st ∨ i.mnemonic = .LD_ST_VX := by
  cases i <;> simp [effect, Instr.mnemonic]

theorem effect_fb : (effect i s).fb = s.fb ∨ i.mnemonic ∈ [Mnemonic.CLS, .DRW] := by
  cases i <;> simp [effect, Instr.mnemonic]

theorem effect_mem : (effect i s).mem = s.mem ∨ i.mnemonic ∈ [Mnemonic.LD_B_VX, .ST_REGS] := by
  cases i <;> simp [effect, Instr.mnemonic]

theorem effect_dirty :
    (effect i s).dirty = s.dirty ∨ (effect i s).dirty = true ∧ i.mnemonic ∈ [Mnemonic.CLS, .DRW] := by
  cases i <;> simp [effect, Instr.mnemonic]

theorem effect_rndCount : (effect i s).rndCount = s.rndCount ∨ i.mnemonic = .RND := by
  cases i <;> simp [effect, Instr.mnemonic]

theorem effect_pc : (effect i s).pc = s.pc + 2 ∨
    i.mnemonic ∈ [Mnemonic.RET, .JP, .CALL, .SE_IMM, .SNE_IMM, .SE_REG, .SNE_REG, .JP_V0, .SKP, .SKNP] := by
  cases i <;> simp [effect, Instr.mnemonic]

/-- Only FX0A changes `exec_state` (R37, R214). -/
theorem effect_execState : (effect i s).execState = s.execState ∨
    ∃ x, i = .ldVxK x ∧ (effect i s).execState = .waitingForKey x := by
  cases i <;> simp [effect]

end

/-! ### The registers -/

/-- The instruction names `z` as a destination, loads it by FX65, or writes it as its flag (R22, R40, R176). -/
def NamesRegister (i : Instr) (z : Nibble) : Prop :=
  (∃ nn, i = .ldImm z nn ∨ i = .addImm z nn ∨ i = .rnd z nn) ∨
    (∃ y, i = .ldReg z y ∨ i = .orReg z y ∨ i = .andReg z y ∨ i = .xorReg z y ∨ i = .addReg z y ∨
      i = .sub z y ∨ i = .shr z y ∨ i = .subn z y ∨ i = .shl z y) ∨
    i = .ldVxDt z ∨ (∃ x, i = .ldRegs x ∧ z.toNat ≤ x.toNat) ∨
    (z = 0xF#4 ∧ i.mnemonic ∈ [Mnemonic.ADD_REG, .SUB, .SHR, .SUBN, .SHL, .DRW])

theorem setV_getV_eq_or (s : State) (x z : Nibble) (b : Byte) : (s.setV x b).getV z = s.getV z ∨ z = x := by
  rw [setV_getV]
  split_ifs with h
  · exact .inr h
  · exact .inl rfl

theorem setVWithFlag_getV_eq_or (s : State) (x z : Nibble) (r g : Byte) :
    (s.setVWithFlag x r g).getV z = s.getV z ∨ z = x ∨ z = 0xF#4 := by
  rw [setVWithFlag_getV]
  split_ifs with hf hx
  · exact .inr (.inr hf)
  · exact .inr (.inl hx)
  · exact .inl rfl

theorem effect_getV (i : Instr) (s : State) (z : Nibble) :
    (effect i s).getV z = s.getV z ∨ NamesRegister i z := by
  cases i
  case ldImm x _ | addImm x _ | ldReg x _ | orReg x _ | andReg x _ | xorReg x _ | ldVxDt x =>
    refine (setV_getV_eq_or s x z _).imp id fun hz => ?_
    simp [NamesRegister, hz]
  case rnd x _ =>
    refine (setV_getV_eq_or s.drawRnd.2 x z _).imp id fun hz => ?_
    simp [NamesRegister, hz]
  case addReg x _ | sub x _ | shr x _ | subn x _ | shl x _ =>
    refine (setVWithFlag_getV_eq_or s x z _ _).imp id fun hz => ?_
    rcases hz with hz | hz <;> simp [NamesRegister, hz, Instr.mnemonic]
  case drw x y n =>
    refine (setV_getV_eq_or (s.setFrame (s.drawn x y n).1) 0xF#4 z _).imp id fun hz => ?_
    simp [NamesRegister, hz, Instr.mnemonic]
  case ldRegs x =>
    by_cases hz : z.toNat ≤ x.toNat
    · exact .inr (.inr (.inr (.inr (.inl ⟨x, rfl, hz⟩))))
    · simp [effect, hz]
  case ret | call => exact .inl rfl
  all_goals exact .inl (by simp [effect])

/-! ### Who writes what -/

/-- Which fatal errors an instruction raises, by its mnemonic (R241). -/
theorem fatal_cases {i : Instr} {s : State} {f : Fault} {w : Word} (h : fatal i s = some (f, w)) :
    (f = .stackUnderflow ∧ i.mnemonic = .RET) ∨
      (f = .stackOverflow ∧ i.mnemonic = .CALL) ∨
      (f = .boundsError ∧ i.mnemonic ∈ [Mnemonic.DRW, .LD_B_VX, .ST_REGS, .LD_REGS]) ∨
      (f = .fontWriteFault ∧ i.mnemonic ∈ [Mnemonic.LD_B_VX, .ST_REGS]) ∨
      (f = .keyIndexFault ∧ i.mnemonic ∈ [Mnemonic.SKP, .SKNP]) := by
  cases i
  case ret | call | skp | sknp =>
    simp only [fatal, keyFault, Option.ite_none_right_eq_some, Option.some.injEq, Prod.mk.injEq] at h
    obtain ⟨-, rfl, -⟩ := h
    simp [Instr.mnemonic]
  case drw | ldRegs =>
    obtain ⟨rfl, -⟩ := checkReads_eq_some h
    simp [Instr.mnemonic]
  case ldBVx | stRegs =>
    rcases checkWrites_eq_some h with ⟨rfl, -⟩ | ⟨rfl, -⟩ <;> simp [Instr.mnemonic]
  all_goals simp [fatal] at h

/-- Which instructions can raise at all (R241). -/
theorem fatal_eq_none_or (i : Instr) (s : State) : fatal i s = none ∨
    i.mnemonic ∈ [Mnemonic.RET, .CALL, .DRW, .LD_B_VX, .ST_REGS, .LD_REGS, .SKP, .SKNP] := by
  cases i <;> simp [fatal, Instr.mnemonic]

/-- Settles O20: an instruction that raises writes `exec_state` alone, and one that raises nothing has its
effect, whose frame was stated field by field. -/
theorem onlyTheNamedInstructionsWrite : Obligations.OnlyTheNamedInstructionsWrite := by
  intro i s t h
  rcases exec_cases h with ⟨f, w, hf, rfl⟩ | ⟨-, rfl⟩
  · have hmn := (fatal_eq_none_or i s).resolve_left (by simp [hf])
    refine ⟨fun z hz => absurd rfl hz, fun _ => .inr ⟨f, w, rfl⟩, fun _ => .inr ⟨hmn, f, w, rfl⟩, ?_⟩
    simp
  · exact ⟨fun z => (effect_getV i s z).resolve_left, fun hpc => .inl ((effect_pc i s).resolve_left hpc),
      fun he => .inl ((effect_execState i s).resolve_left he), (effect_i i s).resolve_left,
      (effect_sp i s).resolve_left, (effect_stack i s).resolve_left, (effect_dt i s).resolve_left,
      (effect_st i s).resolve_left, (effect_fb i s).resolve_left, (effect_mem i s).resolve_left,
      (effect_dirty i s).resolve_left, (effect_rndCount i s).resolve_left, effect_key i s, effect_params i s⟩

/-- Settles O21: VF is one of the registers that O20 speaks of. -/
theorem onlyFlagWritersChangeVF : Obligations.OnlyFlagWritersChangeVF := by
  intro i s t h hne
  obtain ⟨hv, -⟩ := onlyTheNamedInstructionsWrite i s t h
  rcases hv 0xF#4 hne with himm | ⟨y, hreg⟩ | hdt | ⟨x, rfl, hx⟩ | ⟨-, hflag⟩
  · exact .inr (.inl himm)
  · rcases hreg with rfl | rfl | rfl | rfl | rfl | rfl | rfl | rfl | rfl <;> simp [Instr.mnemonic]
  · exact .inr (.inr (.inr (.inl hdt)))
  · have hF : x = 0xF#4 := BitVec.eq_of_toNat_eq (Nat.le_antisymm (Nat.le_of_lt_succ x.isLt) hx)
    exact .inr (.inr (.inr (.inr (by rw [hF]))))
  · exact .inl hflag

end Sys2Proof.Proofs.Effect
end

section
/-! PROOFS. One step (spec/40_cycle.md R100 to R108) and the fatal errors (spec/60_exceptions.md). -/
namespace Sys2Proof.Proofs.Step

open Sys2Proof Sys2Proof.Machine Sys2Proof.Safety Sys2Proof.Proofs.Effect

/-! ### What a step runs -/

theorem cycle_of_executing {s : State} (he : s.execState = .executing) : s.cycle = s.fetchDecode := by
  simp only [State.cycle, he]

theorem step_of_suspended {s : State} (he : s.execState ≠ .executing) : step s = .next s := by
  cases h : s.execState with
  | executing => exact absurd h he
  | waitingForKey _ | halted _ _ => simp only [step, State.cycle, h]

theorem fetchDecode_of_fetchCheck_some {s : State} {f : Fault} {w : Word}
    (hc : fetchCheck s.params s.pc = some (f, w)) : s.fetchDecode = .raises f w := by
  simp only [State.fetchDecode, hc]

theorem fetchDecode_of_illegal {s : State} (hc : fetchCheck s.params s.pc = none)
    (hd : decodeWord s.fetchWord = none) : s.fetchDecode = .raises .decodeError s.fetchWord := by
  simp only [State.fetchDecode, hc, hd]

theorem fetchDecode_of_decodes {s : State} {i : Instr} (hc : fetchCheck s.params s.pc = none)
    (hd : decodeWord s.fetchWord = some i) : s.fetchDecode = .runs i := by
  simp only [State.fetchDecode, hc, hd]

theorem step_of_raises {s : State} (he : s.execState = .executing) {f : Fault} {w : Word}
    (hc : s.fetchDecode = .raises f w) : step s = .next { s with execState := .halted f w } := by
  simp only [step, cycle_of_executing he, hc]
  rfl

theorem step_of_runs {s : State} (he : s.execState = .executing) {i : Instr}
    (hc : s.fetchDecode = .runs i) : step s = exec i s := by
  simp only [step, cycle_of_executing he, hc]

/-- Settles O7: the conditions on `pc` are those of the fetch check. -/
theorem stepRunsTheDecodedInstruction : Obligations.StepRunsTheDecodedInstruction := by
  intro s i he hpc hinv hd
  exact step_of_runs he (fetchDecode_of_decodes ((fetchCheck_eq_none _ _).mpr ⟨hpc, hinv⟩) hd)

theorem apply_step {s t : State} (h : step s = .next t) :
    Txn.step.apply s = .next (t, .step (stepReply s t)) := by
  simp only [Txn.apply, h]

/-- Settles O8: the cycle of a suspended state is `suspended`, and the reply names the state before the step. -/
theorem stepChangesNothingWhenSuspended : Obligations.StepChangesNothingWhenSuspended := by
  refine fun s => ⟨step_of_suspended, fun x he => ?_, fun f info he => ?_⟩ <;>
    rw [apply_step (step_of_suspended (by simp [he])), stepReply, he]

/-- Settles O9: the first three clauses are the ways the fetch check fails, the last a fetched word that does
not decode. -/
theorem stepRaisesBeforeExecuting : Obligations.StepRaisesBeforeExecuting := by
  intro s he
  have raises : ∀ {f w}, fetchCheck s.params s.pc = some (f, w) →
      step s = .next { s with execState := .halted f w } :=
    fun hc => step_of_raises he (fetchDecode_of_fetchCheck_some hc)
  refine ⟨fun hp hpc => raises ?_, fun hp hpc => raises ?_, fun hp hpc => raises ?_, fun hpc hinv hd => ?_⟩
  · simp only [fetchCheck, hp, true_and, if_pos hpc]
  · simp [fetchCheck, hp, hpc]
  · simp [fetchCheck, hp, hpc]
  · exact step_of_raises he (fetchDecode_of_illegal ((fetchCheck_eq_none _ _).mpr ⟨hpc, hinv⟩) hd)

theorem exec_next (i : Instr) (s : State) : ∃ t, exec i s = .next t := by
  cases h : fatal i s with
  | none => exact ⟨_, exec_of_not_fatal h⟩
  | some q => exact ⟨_, exec_of_fatal h⟩

/-- Settles O10: a step answers the same state, a fatal error or what its instruction answers, and an
instruction answers a fatal error or its effect. -/
theorem everyStepAnswersANextState : Obligations.EveryStepAnswersANextState := by
  refine ⟨fun s => ?_, exec_next⟩
  unfold step
  split
  · exact ⟨_, rfl⟩
  · exact ⟨_, rfl⟩
  · exact exec_next _ s

/-! ### Faults -/

/-- An instruction's effect halts nothing. -/
theorem effect_not_halted {i : Instr} {s : State} (he : s.execState = .executing) (f : Fault) (w : Word) :
    (effect i s).execState ≠ .halted f w := by
  rcases effect_execState i s with h | ⟨x, -, h⟩ <;> simp [h, he]

/-- An instruction that halts raised: its check failed, and nothing else changed (R242). -/
theorem exec_halted {i : Instr} {s t : State} {f : Fault} {w : Word} (he : s.execState = .executing)
    (h : exec i s = .next t) (ht : t.execState = .halted f w) :
    fatal i s = some (f, w) ∧ t = { s with execState := .halted f w } := by
  rcases exec_cases h with ⟨g, v, hf, rfl⟩ | ⟨-, rfl⟩
  · cases ht
    exact ⟨hf, rfl⟩
  · exact absurd ht (effect_not_halted he f w)

/-- Settles O13: an instruction that halts raised the error of its check. -/
theorem instructionsRaiseOnlyTheirFaults : Obligations.InstructionsRaiseOnlyTheirFaults :=
  fun _ _ _ _ _ he h ht => fatal_cases (exec_halted he h ht).1

/-- Settles O11: both the fetch and the instruction halt by a raise, and the reply reads the halted state. -/
theorem faultsArePrecise : Obligations.FaultsArePrecise := by
  intro s t f info he h ht
  constructor
  · rcases step_cases h with ⟨hne, -⟩ | ⟨-, g, w, rfl, -⟩ | ⟨-, -, i, -, hi⟩
    · exact absurd he hne
    · cases ht
      rfl
    · exact (exec_halted he hi ht).2
  · rw [apply_step h, stepReply, he, ht]

/-- A state after a step from `Executing` that waits for a key is that of FX0A (R214). -/
theorem exec_waiting {i : Instr} {s t : State} {x : Nibble} (he : s.execState = .executing)
    (h : exec i s = .next t) (ht : t.execState = .waitingForKey x) : i = .ldVxK x := by
  rcases exec_cases h with ⟨f, w, -, rfl⟩ | ⟨-, rfl⟩
  · cases ht
  · rcases effect_execState i s with hsame | ⟨y, rfl, hy⟩
    · rw [ht, he] at hsame
      cases hsame
    · rw [hy] at ht
      cases ht
      rfl

theorem exec_ldVxK (x : Nibble) (s : State) :
    exec (.ldVxK x) s = .next { s with execState := .waitingForKey x, pc := s.pc + 2 } := rfl

/-- A step from `Executing` that ends in a key wait ran FX0A. -/
theorem runs_of_waiting {s t : State} (he : s.execState = .executing) (h : step s = .next t) {x : Nibble}
    (ht : t.execState = .waitingForKey x) : s.cycle = .runs (.ldVxK x) := by
  rcases step_cases h with ⟨hne, -⟩ | ⟨-, f, w, rfl, -⟩ | ⟨-, hc, i, hd, hi⟩
  · exact absurd he hne
  · cases ht
  · rw [cycle_of_executing he, fetchDecode_of_decodes hc hd, exec_waiting he hi ht]

theorem step_of_runs_ldVxK {s : State} {x : Nibble} (hc : s.cycle = .runs (.ldVxK x)) :
    step s = .next { s with execState := .waitingForKey x, pc := s.pc + 2 } := by
  rw [step, hc]
  exact exec_ldVxK x s

/-- Settles O12: by what a step can do; only the effect of FX0A changes `exec_state` without halting. -/
theorem execStateTransitionsOfAStep : Obligations.ExecStateTransitionsOfAStep := by
  intro s t h
  refine ⟨fun hne => ?_, fun he x => ⟨runs_of_waiting he h, fun hc => ?_⟩, fun he x ht => ?_, fun he ht => ⟨?_, ?_⟩⟩
  · rw [step_of_suspended hne] at h
    cases h
    rfl
  · rw [step_of_runs_ldVxK hc] at h
    cases h
    rfl
  · rw [step_of_runs_ldVxK (runs_of_waiting he h ht)] at h
    cases h
    rfl
  · rcases step_cases h with ⟨hne, -⟩ | ⟨-, f, w, rfl, -⟩ | ⟨-, hc, i, hd, -⟩
    · exact absurd he hne
    · cases ht
    · exact ⟨i, by rw [cycle_of_executing he, fetchDecode_of_decodes hc hd]⟩
  · rw [apply_step h, stepReply, he]
    cases hx : t.execState with
    | executing | waitingForKey _ => rfl
    | halted f w => simp [isHalted, hx] at ht

end Sys2Proof.Proofs.Step
end

section
/-! PROOFS. Memory by blocks: two states with the same memory read the same, and the font region
(spec/10_state.md R32, spec/70_reset_and_hazards.md R270 to R272). -/
namespace Sys2Proof.Proofs.Blocks

open Sys2Proof Sys2Proof.Machine Sys2Proof.Safety

section
variable {s u : State} (hp : u.params = s.params) (hm : u.mem = s.mem)
include hp hm

theorem readByte_congr (a : Nat) : u.readByte a = s.readByte a := by
  simp only [State.readByte, hp, hm]

theorem readBytes_congr (a k : Nat) : u.readBytes a k = s.readBytes a k := by
  induction k generalizing a with
  | zero => rfl
  | succ k ih => simp only [State.readBytes, readByte_congr hp hm, ih]

theorem fontIntact_congr (hf : FontIntact s) : FontIntact u := by
  intro j hj
  simpa only [readByte_congr hp hm, hp] using hf j hj

end

theorem storeBytes_mem_congr {s u : State} (hp : u.params = s.params) (hm : u.mem = s.mem) (a : Nat)
    (bs : List Byte) : (u.storeBytes a bs).mem = (s.storeBytes a bs).mem := by
  induction bs generalizing s u a with
  | nil => exact hm
  | cons b bs ih => exact ih (by simpa using hp) (by simp [hp, hm]) (a + 1)

/-- A byte of a stored block. -/
theorem storeBytes_readByte_of_lt (s : State) (a : Nat) {bs : List Byte} {j : Nat} (h : j < bs.length) :
    (s.storeBytes a bs).readByte (a + j) = bs[j] := by
  rw [storeBytes_readByte, if_pos (Nat.le_add_right a j), Nat.add_sub_cancel_left, List.getElem?_eq_getElem h,
    Option.getD_some]

/-- A byte off a stored block. -/
theorem storeBytes_readByte_of_out {s : State} {a c : Nat} {bs : List Byte} (h : c < a ∨ a + bs.length ≤ c) :
    (s.storeBytes a bs).readByte c = s.readByte c := by
  rw [storeBytes_readByte]
  split_ifs
  · rw [List.getElem?_eq_none (by omega), Option.getD_none]
  · rfl

/-! ### The font region -/

theorem resetByte_of_not_inFontRegion {p : Params} {a : Nat} (h : inFontRegion p a = false) :
    resetByte p a = 0 := by
  simp only [inFontRegion, decide_eq_false_iff_not] at h
  exact dif_neg h

theorem resetByte_font (p : Params) (j : Nat) (hj : j < Config.fontSize) :
    resetByte p (p.fontBase.val + j) = fontByte p j hj := by
  unfold resetByte
  rw [dif_pos ⟨by omega, by omega⟩]
  congr 1
  omega

theorem inFontRegion_iff (p : Params) (a : Nat) :
    inFontRegion p a = true ↔ p.fontBase.val ≤ a ∧ a < p.fontBase.val + 80 :=
  decide_eq_true_iff

theorem inFontRegion_add (p : Params) {j : Nat} (hj : j < Config.fontSize) :
    inFontRegion p (p.fontBase.val + j) = true :=
  (inFontRegion_iff _ _).mpr ⟨by omega, by simp only [Config.fontSize] at hj; omega⟩

/-- A state that reads its reset contents in the font region has the font there. -/
theorem fontIntact_of_readByte {s : State}
    (h : ∀ a, inFontRegion s.params a = true → s.readByte a = resetByte s.params a) : FontIntact s :=
  fun j hj => (h _ (inFontRegion_add _ hj)).trans (resetByte_font _ j hj)

/-- A block store outside the font region keeps the font. -/
theorem storeBytes_fontIntact {s : State} {a : Nat} {bs : List Byte}
    (hoff : ∀ j, j < bs.length → inFontRegion s.params (a + j) = false) (hf : FontIntact s) :
    FontIntact (s.storeBytes a bs) := by
  intro j hj
  have hin := inFontRegion_add s.params hj
  have hout : s.params.fontBase.val + j < a ∨ a + bs.length ≤ s.params.fontBase.val + j := by
    by_contra hc
    have hno := hoff (s.params.fontBase.val + j - a) (by omega)
    rw [Nat.add_sub_cancel' (by omega), hin] at hno
    cases hno
  simpa only [storeBytes_params, storeBytes_readByte_of_out hout] using hf j hj

/-! ### Installing the font -/

/-- Installing the font changes memory and nothing else. -/
theorem installFontFrom_eq (s : State) (j n : Nat) :
    s.installFontFrom j n = { s with mem := (s.installFontFrom j n).mem } := by
  induction n generalizing s j with
  | zero => rfl
  | succ n ih => exact ih (s.writeByte _ _) (j + 1)

/-- Installing the font unlists its bytes. -/
theorem installFontFrom_mem (s : State) (j n : Nat) :
    (s.installFontFrom j n).mem = s.mem.filter fun c =>
      !decide (s.params.fontBase.val + j ≤ c.1 ∧ c.1 < s.params.fontBase.val + j + n) := by
  induction n generalizing s j with
  | zero =>
    refine (List.filter_eq_self.mpr fun c _ => ?_).symm
    simp only [Bool.not_eq_true', decide_eq_false_iff_not]
    omega
  | succ n ih =>
    rw [State.installFontFrom, ih, writeByte_mem, Memory.write, if_pos rfl, Memory.erase, List.filter_filter]
    refine List.filter_congr fun c _ => ?_
    rw [Bool.eq_iff_iff]
    simp only [Bool.and_eq_true, Bool.not_eq_true', decide_eq_false_iff_not, bne_iff_ne]
    rw [writeByte_params]
    omega

theorem installFontFrom_readByte (s : State) (j n a : Nat) :
    (s.installFontFrom j n).readByte a =
      if s.params.fontBase.val + j ≤ a ∧ a < s.params.fontBase.val + j + n then resetByte s.params a
      else s.readByte a := by
  induction n generalizing s j with
  | zero => rw [if_neg (by omega), State.installFontFrom]
  | succ n ih =>
    rw [State.installFontFrom, ih, writeByte_readByte, writeByte_params]
    by_cases ha : a = s.params.fontBase.val + j
    · subst ha
      rw [if_neg (by omega), if_pos rfl, if_pos (by omega)]
    · rw [if_neg ha]
      congr 1
      rw [eq_iff_iff]
      omega

/-- Filtering keeps the canonical form. -/
theorem wfFrom_filter {p : Params} {m : Memory} {lo : Nat} (q : Host.Cell → Bool)
    (hm : Memory.wfFrom p lo m = true) : Memory.wfFrom p lo (m.filter q) = true := by
  induction m generalizing lo with
  | nil => rfl
  | cons c m ih =>
    obtain ⟨a, v⟩ := c
    simp only [Memory.wfFrom, Bool.and_eq_true, decide_eq_true_eq] at hm
    obtain ⟨⟨⟨hlo, ha⟩, hv⟩, hrest⟩ := hm
    rw [List.filter_cons]
    split_ifs
    · simp only [Memory.wfFrom, Bool.and_eq_true, decide_eq_true_eq]
      exact ⟨⟨⟨hlo, ha⟩, hv⟩, ih hrest⟩
    · exact wfFrom_mono (by omega) (ih hrest)

end Sys2Proof.Proofs.Blocks
end

section
/-! PROOFS. The invariants of a step (spec/10_state.md R32, spec/20_memory.md R52, spec/40_cycle.md R106,
spec/60_exceptions.md R240). -/
namespace Sys2Proof.Proofs.Invariants

open Sys2Proof Sys2Proof.Machine Sys2Proof.Safety Sys2Proof.Proofs.Effect Sys2Proof.Proofs.Step
  Sys2Proof.Proofs.Blocks

/-- An invariant of the step: kept by every raise and by every instruction run. -/
theorem step_keeps {P : State → Prop} {s t : State} (h : step s = .next t) (hs : P s)
    (hraise : ∀ f w, P (s.raise f w))
    (hexec : ∀ i, fetchCheck s.params s.pc = none → exec i s = .next t → P t) : P t := by
  rcases step_cases h with ⟨-, rfl⟩ | ⟨-, f, w, rfl, -⟩ | ⟨-, hc, i, -, hi⟩
  · exact hs
  · exact hraise f w
  · exact hexec i hc hi

/-- Settles O15: memory changes by a store whose check passed, which keeps the canonical form. -/
theorem stepKeepsMemoryCanonical : Obligations.StepKeepsMemoryCanonical := by
  intro s t hs h
  refine step_keeps h hs (fun _ _ => hs) fun i _ hi => ?_
  obtain ⟨hp, hm | ⟨bs, -, hc, hm⟩⟩ := exec_mem hi <;> rw [MemCanonical, hp, hm]
  · exact hs
  · exact checkedStore_wf hc hs

/-- Settles O17: a store whose check passed under `FONT_WRITE_POLICY = fault` stays off the font region. -/
theorem stepKeepsTheFont : Obligations.StepKeepsTheFont := by
  intro s t hpol hs h
  refine step_keeps h hs (fun _ _ => hs) fun i _ hi => ?_
  obtain ⟨hp, hm | ⟨bs, -, hc, hm⟩⟩ := exec_mem hi
  · exact fontIntact_congr hp hm hs
  · have hoff : ∀ j, j < bs.length → inFontRegion s.params (s.baseAddr + j) = false := fun j hj => by
      simpa [hpol] using ((checkWrites_eq_none _ _ _).mp hc j hj).2
    exact fontIntact_congr (by rw [hp, storeBytes_params]) hm (storeBytes_fontIntact hoff hs)

/-! ### Addresses -/

theorem add_two_toNat {w : Word} (h : w.toNat ≤ 0x1000) : (w + 2).toNat = w.toNat + 2 := by
  bv_omega

theorem skipIf_pc_le {s : State} (c : Bool) (h : s.pc.toNat ≤ 0xFFE) : (s.skipIf c).pc.toNat ≤ 0x10FE := by
  have hnpc := add_two_toNat (w := s.pc) (by omega)
  rw [skipIf_pc, npc_eq]
  split_ifs
  · rw [add_two_toNat (by omega)]
    omega
  · omega

theorem slot_le {s : State} (hs : AddressesBounded s) (j : Nat) (hj : j < 16) : s.stack[j].toNat ≤ 0x1000 :=
  hs.2 ⟨j, hj⟩

/-- Every write of `pc` is bounded: `npc`, a skip, a 12-bit target, such a target plus V0, or a stack slot
(R106). -/
theorem effect_pc_le (i : Instr) {s : State} (hs : AddressesBounded s) (hpc : s.pc.toNat ≤ 0xFFE) :
    (effect i s).pc.toNat ≤ 0x10FE := by
  rcases effect_pc i s with h | h
  · rw [h, add_two_toNat (by omega)]
    omega
  · cases i
    case ret => exact (slot_le hs _ _).trans (by decide)
    case jp nnn | call nnn =>
      have hnnn := nnn.isLt
      simp only [effect, setPc_pc, zextAddr_toNat]
      omega
    case jpV0 nnn =>
      have hnnn := nnn.isLt
      have hv := (s.getV 0#4).isLt
      simp only [effect, setPc_pc, BitVec.toNat_add, zextByte_toNat, zextAddr_toNat]
      omega
    case seImm | sneImm | seReg | sneReg | skp | sknp => exact skipIf_pc_le _ hpc
    all_goals simp [Instr.mnemonic] at h

/-- A call pushes `npc`, and no other instruction writes a slot (R27). -/
theorem effect_slot_le (i : Instr) {s : State} (hs : AddressesBounded s) (hpc : s.pc.toNat ≤ 0xFFE)
    (j : Fin 16) : (effect i s).stack[j].toNat ≤ 0x1000 := by
  rcases effect_stack i s with h | h
  · rw [h]
    exact hs.2 j
  · cases i
    case call =>
      simp only [effect, npc_eq, Fin.getElem_fin, Vector.getElem_setIfInBounds]
      split_ifs
      · rw [add_two_toNat (by omega)]
        omega
      · exact hs.2 j
    all_goals cases h

/-- Settles O16: a fetch needs `pc` at most 0xFFE, and from there every write of `pc` and of a slot is
bounded. -/
theorem stepKeepsAddressesBounded : Obligations.StepKeepsAddressesBounded := by
  intro s t hs h
  refine step_keeps h hs (fun _ _ => hs) fun i hc hi => ?_
  have hpc := ((fetchCheck_eq_none _ _).mp hc).1
  rcases exec_cases hi with ⟨f, w, -, rfl⟩ | ⟨-, rfl⟩
  · exact hs
  · exact ⟨effect_pc_le i hs hpc, effect_slot_le i hs hpc⟩

/-! ### Fault records -/

theorem max_record_toNat (w : Word) : (BitVec.ofNat 16 (max w.toNat 0x1000)).toNat = max w.toNat 0x1000 := by
  have hw := w.isLt
  rw [BitVec.toNat_ofNat]
  omega

theorem keyIndex_eq_none {p : Params} {v : Byte} (h : keyIndex p v = none) :
    p.keyIndexPolicy = .fault ∧ 0xF < v.toNat := by
  rcases Nat.lt_or_ge 0xF v.toNat with hv | hv
  · rw [keyIndex_of_gt hv] at h
    cases hp : p.keyIndexPolicy <;> simp_all
  · simp [keyIndex_of_le hv] at h

theorem recordJustified_of_not_halted {s : State} (h : isHalted s = false) : RecordJustified s := by
  unfold RecordJustified
  cases he : s.execState with
  | executing | waitingForKey _ => trivial
  | halted f w => simp [isHalted, he] at h

/-- A block access past the end of memory records `max(I, 0x1000)` (R174, R240). -/
theorem recordJustified_block {s : State} {k : Nat} (hb : WritesBlock s k ∨ ReadsBlock s k)
    (hlt : max s.baseAddr 0x1000 < s.baseAddr + k) :
    RecordJustified (s.raise .boundsError (BitVec.ofNat 16 (max s.baseAddr 0x1000))) := by
  have hrec := max_record_toNat s.i
  exact .inr ⟨k, hb, hrec, hrec.trans_lt hlt⟩

/-- A failing write check of a block raises with a true record (R54, R174). -/
theorem recordJustified_write {s : State} {k : Nat} {f : Fault} {w : Word} (hb : WritesBlock s k)
    (hf : checkWrites s.params s.baseAddr k = some (f, w)) : RecordJustified (s.raise f w) := by
  rcases checkWrites_eq_some hf with ⟨rfl, rfl, hlt⟩ | ⟨rfl, hpol, b, rfl, hlo, hhi, hmem, hin, hfirst⟩
  · exact recordJustified_block (.inl hb) hlt
  · have hrec : (BitVec.ofNat 16 b).toNat = b := by
      rw [BitVec.toNat_ofNat]
      omega
    refine ⟨hpol, k, hb, ?_⟩
    rw [hrec]
    exact ⟨hlo, hhi, hin, hfirst⟩

/-- A failing read check of a block raises with a true record (R52). -/
theorem recordJustified_read {s : State} {k : Nat} {f : Fault} {w : Word} (hb : ReadsBlock s k)
    (hf : checkReads s.baseAddr k = some (f, w)) : RecordJustified (s.raise f w) := by
  obtain ⟨rfl, rfl, hlt⟩ := checkReads_eq_some hf
  exact recordJustified_block (.inr hb) hlt

/-- A key skip whose VX names no key raises with a true record (R212). -/
theorem recordJustified_key {s : State} {x : Nibble} {f : Fault} {w : Word}
    (hrun : s.fetchDecode = .runs (.skp x) ∨ s.fetchDecode = .runs (.sknp x))
    (hf : keyFault s x = some (f, w)) : RecordJustified (s.raise f w) := by
  simp only [keyFault, Option.ite_none_right_eq_some, Option.some.injEq, Prod.mk.injEq] at hf
  obtain ⟨hkey, rfl, rfl⟩ := hf
  obtain ⟨hpol, hv⟩ := keyIndex_eq_none hkey
  exact ⟨hpol, x, hrun, hv, rfl⟩

/-- An instruction that raises leaves a true record (R240). -/
theorem recordJustified_of_fatal {i : Instr} {s : State} {f : Fault} {w : Word}
    (hrun : s.fetchDecode = .runs i) (hf : fatal i s = some (f, w)) : RecordJustified (s.raise f w) := by
  cases i
  case ret =>
    simp only [fatal, Option.ite_none_right_eq_some, Option.some.injEq, Prod.mk.injEq] at hf
    obtain ⟨hsp, rfl, rfl⟩ := hf
    exact ⟨hrun, hsp, rfl⟩
  case call nnn =>
    simp only [fatal, Option.ite_none_right_eq_some, Option.some.injEq, Prod.mk.injEq] at hf
    obtain ⟨hsp, rfl, rfl⟩ := hf
    exact ⟨⟨nnn, hrun⟩, hsp, rfl⟩
  case skp x => exact recordJustified_key (.inl hrun) hf
  case sknp x => exact recordJustified_key (.inr hrun) hf
  case drw x y n => exact recordJustified_read ⟨x, y, n, .inr ⟨hrun, rfl⟩⟩ hf
  case ldRegs x => exact recordJustified_read ⟨x, 0, 0, .inl ⟨hrun, rfl⟩⟩ hf
  case ldBVx x => exact recordJustified_write ⟨x, .inl ⟨hrun, rfl⟩⟩ hf
  case stRegs x => exact recordJustified_write ⟨x, .inr ⟨hrun, rfl⟩⟩ hf
  all_goals simp [fatal] at hf

/-- A failing fetch check leaves a true record (R102). -/
theorem recordJustified_of_fetchCheck {s : State} {f : Fault} {w : Word}
    (hc : fetchCheck s.params s.pc = some (f, w)) : RecordJustified (s.raise f w) := by
  rcases fetchCheck_eq_some hc with ⟨rfl, rfl, hp, hpc⟩ | ⟨rfl, hp, hpc, rfl⟩
  · exact ⟨hp, rfl, hpc⟩
  · exact .inl ⟨hp, hpc, max_record_toNat s.pc⟩

/-- Settles O18: a step halts by the fetch check, by an illegal word or by its instruction's check, and each of
these records what R240 says. -/
theorem stepKeepsFaultRecordsTrue : Obligations.StepKeepsFaultRecordsTrue := by
  intro s t hs h
  rcases step_cases h with ⟨-, rfl⟩ | ⟨-, f, w, rfl, hc | ⟨hc, hd, rfl, rfl⟩⟩ | ⟨he, hc, i, hd, hi⟩
  · exact hs
  · exact recordJustified_of_fetchCheck hc
  · exact ⟨hc, hd, rfl⟩
  · rcases exec_cases hi with ⟨f, w, hf, rfl⟩ | ⟨-, rfl⟩
    · exact recordJustified_of_fatal (fetchDecode_of_decodes hc hd) hf
    · refine recordJustified_of_not_halted ?_
      rcases effect_execState i s with h | ⟨x, -, h⟩ <;> simp [isHalted, h, he]

end Sys2Proof.Proofs.Invariants
end

section
/-! PROOFS. The host's transactions (spec/00_scope.md section 4, spec/70_reset_and_hazards.md). -/
namespace Sys2Proof.Proofs.Transactions

open Sys2Proof Sys2Proof.Machine Sys2Proof.Safety Sys2Proof.Proofs.Effect Sys2Proof.Proofs.Step
  Sys2Proof.Proofs.Blocks Sys2Proof.Proofs.Invariants

/-! ### `step` and its reply -/

theorem step_of_apply {s t : State} {r : Reply} (h : Txn.step.apply s = .next (t, r)) :
    step s = .next t ∧ r = .step (stepReply s t) := by
  obtain ⟨u, hu⟩ := everyStepAnswersANextState.1 s
  rw [apply_step hu] at h
  cases h
  exact ⟨hu, rfl⟩

theorem step_params {s t : State} (h : step s = .next t) : t.params = s.params :=
  step_keeps (P := fun u => u.params = s.params) h rfl (fun _ _ => rfl) fun _ _ hi => (exec_mem hi).1

/-! ### `tick_timers` -/

theorem countDown_toNat (b : Byte) : (countDown b).toNat = b.toNat - 1 := by
  unfold countDown
  split_ifs with hb
  · simp [hb]
  · have hpos : b.toNat ≠ 0 := fun h => hb (BitVec.eq_of_toNat_eq h)
    bv_omega

theorem tickTimers_of_halted {s : State} (h : isHalted s = true) : s.tickTimers = (s, false) := by
  cases he : s.execState with
  | executing | waitingForKey _ => simp [isHalted, he] at h
  | halted _ _ => simp only [State.tickTimers, he]

theorem tickTimers_of_not_halted {s : State} (h : isHalted s = false) :
    s.tickTimers = ((s.setDt (countDown s.dt)).setSt (countDown s.st), decide (s.st = 1)) := by
  cases he : s.execState with
  | executing | waitingForKey _ => simp only [State.tickTimers, he]
  | halted _ _ => simp [isHalted, he] at h

/-- Settles O54: `countDown` takes one off a timer that is not 0, and `ST` falls from 1 to 0 exactly when it
was 1. -/
theorem tickCountsDownAndBeepsOnce : Obligations.TickCountsDownAndBeepsOnce := by
  refine fun s => ⟨s.tickTimers.1, s.tickTimers.2, rfl, fun h => ?_, fun h => ?_⟩
  · rw [tickTimers_of_halted h]
    exact ⟨rfl, rfl⟩
  · rw [tickTimers_of_not_halted h]
    refine ⟨countDown_toNat _, countDown_toNat _, ?_, rfl⟩
    simp only [setSt_st, countDown_toNat, decide_eq_true_eq, ← BitVec.toNat_inj]
    exact ⟨fun h => ⟨h, by rw [h]; rfl⟩, fun h => h.1⟩

/-! ### `set_key` -/

theorem setKey_of_halted {s : State} (h : isHalted s = true) (k : Nibble) (b : Bool) : s.setKey k b = s := by
  cases he : s.execState with
  | executing | waitingForKey _ => simp [isHalted, he] at h
  | halted _ _ => simp only [State.setKey, he]

theorem setKey_of_executing {s : State} (h : s.execState = .executing) (k : Nibble) (b : Bool) :
    s.setKey k b = s.setKeyLatch k b := by
  simp only [State.setKey, h]

theorem setKey_press {s : State} {t : Nibble} (h : s.execState = .waitingForKey t) (k : Nibble) :
    s.setKey k true = ((s.setKeyLatch k true).setV t (k.setWidth 8)).setExecState .executing := by
  simp only [State.setKey, h, if_true]

theorem setKey_release {s : State} {t : Nibble} (h : s.execState = .waitingForKey t) (k : Nibble) :
    s.setKey k false = s.setKeyLatch k false := by
  simp only [State.setKey, h, Bool.false_eq_true, if_false]

/-- Settles O53: by the execution state, and in a key wait by whether the key is pressed. -/
theorem onlyAPressResolvesTheKeyWait : Obligations.OnlyAPressResolvesTheKeyWait := by
  refine fun s k r b => ⟨fun h => ?_, fun h => ?_, fun h => ?_, fun h => ?_⟩ <;> rw [Txn.apply]
  · rw [setKey_press h]
    rfl
  · rw [setKey_release h]
    rfl
  · rw [setKey_of_executing h]
    rfl
  · rw [setKey_of_halted h]

/-! ### `consume_frame`, `load`, `power_on` and the boot -/

/-- Settles O55: `consume_frame` does not look at the execution state. -/
theorem consumeFrameClearsDirty : Obligations.ConsumeFrameClearsDirty := fun _ => rfl

theorem load_of_le {s : State} {bytes : List Byte} (h : bytes.length ≤ Config.romCapacity) :
    s.load bytes = (s.storeBytes Config.programStart bytes, .ok) :=
  if_neg (Nat.not_lt.mpr h)

theorem load_of_gt {s : State} {bytes : List Byte} (h : Config.romCapacity < bytes.length) :
    s.load bytes = (s, .loadCapacity) :=
  if_pos h

/-- A load changes memory and nothing else (R60). -/
theorem load_eq (s : State) (bytes : List Byte) : (s.load bytes).1 = { s with mem := (s.load bytes).1.mem } := by
  rcases Nat.lt_or_ge Config.romCapacity bytes.length with h | h
  · rw [load_of_gt h]
  · rw [load_of_le h]
    exact storeBytes_eq _ _ _

/-- Settles O56: an image that fits is a block store at 0x200, and a byte after it is the image's or what it
was. -/
theorem loadPlacesTheImage : Obligations.LoadPlacesTheImage := by
  refine fun s bytes => ⟨fun h => ?_, fun h => ⟨s.storeBytes 0x200 bytes, ?_,
    fun j hj => storeBytes_readByte_of_lt s _ hj, fun a ha => storeBytes_readByte_of_out ha, storeBytes_eq _ _ _⟩⟩
  · rw [Txn.apply, load_of_gt h]
  · rw [Txn.apply, load_of_le h]

theorem powerOn_readByte (s : State) (a : Nat) : s.powerOn.readByte a = resetByte s.params a := rfl

theorem powerOn_fontIntact (s : State) : FontIntact s.powerOn :=
  fontIntact_of_readByte fun a _ => powerOn_readByte s a

theorem powerOn_addressesBounded (s : State) : AddressesBounded s.powerOn := by
  constructor <;> simp [State.powerOn, State.reset]

/-- Settles O57: memory lists no byte, so that it reads as its reset contents. -/
theorem powerOnLeavesTheResetValues : Obligations.PowerOnLeavesTheResetValues := by
  refine ⟨fun s t r h => ?_, rfl⟩
  cases h
  refine ⟨fun a ha => (powerOn_readByte s a).trans (resetByte_of_not_inFontRegion ha), powerOn_fontIntact s,
    fun x => ?_, rfl, rfl, fun j => ?_, rfl, rfl, rfl, fun X Y => blank_pixel X Y, fun k => ?_, rfl, rfl, rfl, rfl⟩
  · simp [State.getV, State.powerOn, State.reset]
  · simp [State.powerOn, State.reset]
  · simp [State.powerOn, State.reset]

/-- Settles O14: the reset state is what `power_on` leaves of it. -/
theorem resetMeetsTheInvariants : Obligations.ResetMeetsTheInvariants :=
  ⟨reset_mem_wf, powerOn_addressesBounded State.reset, powerOn_fontIntact State.reset, trivial⟩

theorem initCore_eq (s : State) :
    s.initCore = { s with pc := 0x200, i := 0, sp := 0, mem := s.initCore.mem } :=
  installFontFrom_eq _ _ _

theorem initCore_mem (s : State) : s.initCore.mem = s.mem.filter fun c => !inFontRegion s.params c.1 :=
  installFontFrom_mem _ _ _

theorem initCore_readByte (s : State) (a : Nat) :
    s.initCore.readByte a = if inFontRegion s.params a = true then resetByte s.params a else s.readByte a := by
  simp only [inFontRegion_iff]
  exact installFontFrom_readByte _ _ _ _

theorem initCore_params (s : State) : s.initCore.params = s.params := by rw [initCore_eq]

theorem initCore_fontIntact (s : State) : FontIntact s.initCore := by
  refine fontIntact_of_readByte fun a ha => ?_
  rw [initCore_params] at ha ⊢
  rw [initCore_readByte, if_pos ha]

theorem initCore_idem (s : State) : s.initCore.initCore = s.initCore := by
  have hmem : s.initCore.initCore.mem = s.initCore.mem := by
    rw [initCore_mem s.initCore, initCore_params, initCore_mem s, List.filter_filter]
    simp only [Bool.and_self]
  rw [initCore_eq s.initCore, hmem]
  conv_rhs => rw [initCore_eq s]
  rw [initCore_eq s]

/-- Settles O58: installing the font unlists the bytes of the font region, and a second time finds none. -/
theorem initializeResetsPcIndexStackAndFont : Obligations.InitializeResetsPcIndexStackAndFont := by
  intro s
  refine ⟨s.initCore, rfl, initCore_eq s, initCore_fontIntact s, fun a ha => ?_, ?_⟩
  · rw [initCore_readByte, ha]
    rfl
  · rw [Txn.apply, initCore_idem]

/-! ### What every transaction keeps -/

/-- A transaction that keeps the three invariants, and the parameters the third depends on. -/
structure KeepsInvariants (s t : State) : Prop where
  params : t.params = s.params
  canonical : MemCanonical s → MemCanonical t
  bounded : AddressesBounded s → AddressesBounded t
  font : s.params.fontWritePolicy = .fault → FontIntact s → FontIntact t

theorem KeepsInvariants.trans {s t u : State} (h₁ : KeepsInvariants s t) (h₂ : KeepsInvariants t u) :
    KeepsInvariants s u where
  params := h₂.params.trans h₁.params
  canonical := h₂.canonical ∘ h₁.canonical
  bounded := h₂.bounded ∘ h₁.bounded
  font hpol hf := h₂.font (h₁.params ▸ hpol) (h₁.font hpol hf)

/-- A state with the same parameters, memory, `pc` and stack meets the same invariants. -/
theorem KeepsInvariants.of_eq {s t : State} (hp : t.params = s.params) (hm : t.mem = s.mem) (hpc : t.pc = s.pc)
    (hst : t.stack = s.stack) : KeepsInvariants s t where
  params := hp
  canonical h := by rwa [MemCanonical, hp, hm]
  bounded h := by rwa [AddressesBounded, hpc, hst]
  font _ := fontIntact_congr hp hm

theorem step_keepsInvariants {s t : State} (h : step s = .next t) : KeepsInvariants s t where
  params := step_params h
  canonical hs := stepKeepsMemoryCanonical s t hs h
  bounded hs := stepKeepsAddressesBounded s t hs h
  font hpol hs := stepKeepsTheFont s t hpol hs h

theorem powerOn_keepsInvariants (s : State) : KeepsInvariants s s.powerOn where
  params := rfl
  canonical _ := rfl
  bounded _ := powerOn_addressesBounded s
  font _ _ := powerOn_fontIntact s

theorem initCore_keepsInvariants (s : State) : KeepsInvariants s s.initCore where
  params := initCore_params s
  canonical h := by
    rw [MemCanonical, initCore_params, initCore_mem]
    exact wfFrom_filter _ h
  bounded h := by
    rw [initCore_eq]
    exact ⟨(by decide : (0x200 : Word).toNat ≤ 0x10FE), h.2⟩
  font _ _ := initCore_fontIntact s

/-- An image is stored at 0x200 and up, past the font region and inside memory (R8, R60). -/
theorem load_keepsInvariants (s : State) (bytes : List Byte) : KeepsInvariants s (s.load bytes).1 := by
  rcases Nat.lt_or_ge Config.romCapacity bytes.length with h | h
  · rw [load_of_gt h]
    exact .of_eq rfl rfl rfl rfl
  · rw [load_of_le h]
    refine ⟨by simp, storeBytes_wf ?_, fun hs => ?_, fun _ => storeBytes_fontIntact fun j _ => ?_⟩
    · simp only [Config.romCapacity, Config.programStart, Config.memSize] at h ⊢
      omega
    · rwa [AddressesBounded, storeBytes_pc, storeBytes_stack]
    · have hbase := s.params.fontBase.isLt
      simp only [inFontRegion, Config.fontSize, Config.programStart, decide_eq_false_iff_not]
      omega

theorem tickTimers_keepsInvariants (s : State) : KeepsInvariants s s.tickTimers.1 := by
  cases h : isHalted s with
  | true => rw [tickTimers_of_halted h]; exact .of_eq rfl rfl rfl rfl
  | false => rw [tickTimers_of_not_halted h]; exact .of_eq rfl rfl rfl rfl

theorem setKey_keepsInvariants (s : State) (k : Nibble) (b : Bool) : KeepsInvariants s (s.setKey k b) := by
  unfold State.setKey
  split
  · exact .of_eq rfl rfl rfl rfl
  · exact .of_eq rfl rfl rfl rfl
  · split_ifs <;> exact .of_eq rfl rfl rfl rfl

theorem apply_keepsInvariants {x : Txn} {s t : State} {r : Reply} (h : x.apply s = .next (t, r)) :
    KeepsInvariants s t := by
  cases x
  case step => exact step_keepsInvariants (step_of_apply h).1
  case powerOn => cases h; exact powerOn_keepsInvariants s
  case initCore => cases h; exact initCore_keepsInvariants s
  case load bytes => cases h; exact load_keepsInvariants s bytes
  case tickTimers => cases h; exact tickTimers_keepsInvariants s
  case setKey k b => cases h; exact setKey_keepsInvariants s k b
  case consumeFrame => cases h; exact .of_eq rfl rfl rfl rfl

theorem runTxns_keepsInvariants {ts : List Txn} {s t : State} (h : runTxns ts s = .next t) :
    KeepsInvariants s t := by
  induction ts generalizing s with
  | nil =>
    cases h
    exact .of_eq rfl rfl rfl rfl
  | cons x ts ih =>
    cases hx : x.apply s with
    | next q =>
      rw [runTxns_cons hx] at h
      exact (apply_keepsInvariants hx).trans (ih h)
    | fault f => simp [runTxns, hx] at h
    | refused r => simp [runTxns, hx] at h

/-- Settles O19: by induction on the run, one transaction at a time. -/
theorem everyRunKeepsTheInvariants : Obligations.EveryRunKeepsTheInvariants := by
  intro ts s t h
  obtain ⟨-, hcanonical, hbounded, hfont⟩ := runTxns_keepsInvariants h
  exact ⟨hcanonical, hbounded, hfont⟩

/-! ### The execution state along transactions -/

theorem isHalted_iff (s : State) : isHalted s = true ↔ ∃ f w, s.execState = .halted f w := by
  unfold isHalted
  split <;> simp_all

theorem tickTimers_execState (s : State) : s.tickTimers.1.execState = s.execState := by
  cases h : isHalted s with
  | true => rw [tickTimers_of_halted h]
  | false => rw [tickTimers_of_not_halted h]; rfl

theorem load_execState (s : State) (bytes : List Byte) : (s.load bytes).1.execState = s.execState := by
  rw [load_eq]

theorem initCore_execState (s : State) : s.initCore.execState = s.execState := by rw [initCore_eq]

theorem step_of_halted {s : State} (h : isHalted s = true) : step s = .next s := by
  obtain ⟨f, w, he⟩ := (isHalted_iff s).mp h
  exact step_of_suspended (by simp [he])

/-- Settles O59: by the transaction; `step`, `tick_timers` and `set_key` look at the execution state first, and
the boot, `load` and `consume_frame` leave it alone. -/
theorem onlyPowerOnLeavesHalted : Obligations.OnlyPowerOnLeavesHalted := by
  intro x s t r hs h
  cases x
  case step =>
    obtain ⟨ht, rfl⟩ := step_of_apply h
    rw [step_of_halted hs] at ht
    cases ht
    obtain ⟨f, w, he⟩ := (isHalted_iff s).mp hs
    simp [stepReply, he]
  case powerOn => cases h; simp [State.powerOn, State.reset]
  case initCore => cases h; simp [initCore_execState]
  case load => cases h; simp [load_execState]
  case tickTimers => cases h; simp [tickTimers_of_halted hs]
  case setKey => cases h; simp [setKey_of_halted hs]
  case consumeFrame => cases h; simp [State.consumeFrame]

end Sys2Proof.Proofs.Transactions
end

section
/-! PROOFS. Fair infinite runs (spec/70_reset_and_hazards.md R283). -/
namespace Sys2Proof.Proofs.Runs

open Sys2Proof Sys2Proof.Machine Sys2Proof.Safety Sys2Proof.Proofs.Step Sys2Proof.Proofs.Transactions

/-- While executing, only a `step` can leave `Executing`. -/
theorem apply_executing {x : Txn} {s t : State} {r : Reply} (hx : x ≠ .step) (he : s.execState = .executing)
    (h : x.apply s = .next (t, r)) : t.execState = .executing := by
  cases x
  case step => exact absurd rfl hx
  case powerOn => cases h; rfl
  case initCore => cases h; rw [initCore_execState, he]
  case load => cases h; rw [load_execState, he]
  case tickTimers => cases h; rw [tickTimers_execState, he]
  case setKey => cases h; rw [setKey_of_executing he, setKeyLatch_execState, he]
  case consumeFrame => cases h; exact he

/-- The next of the infinitely many steps comes while the core is still executing. -/
theorem executing_until_step {ts : Nat → Txn} {σ : Nat → State} (hrun : IsRun ts σ) {n m : Nat} (hnm : n ≤ m)
    (hno : ∀ l, n ≤ l → l < m → ts l ≠ .step) (he : (σ n).execState = .executing) :
    (σ m).execState = .executing := by
  induction m, hnm using Nat.le_induction with
  | base => exact he
  | succ m hnm ih =>
    obtain ⟨r, hr⟩ := hrun m
    exact apply_executing (hno m hnm (Nat.lt_succ_self m)) (ih fun l h₁ h₂ => hno l h₁ (by omega)) hr

theorem exists_step_while_executing {ts : Nat → Txn} {σ : Nat → State} (hrun : IsRun ts σ) (hfair : Fair ts)
    {n : Nat} (he : (σ n).execState = .executing) :
    ∃ m, n ≤ m ∧ ts m = .step ∧ ∀ l, n ≤ l → l ≤ m → (σ l).execState = .executing := by
  have hstep := hfair.1 n
  obtain ⟨hle, hts⟩ := Nat.find_spec hstep
  refine ⟨Nat.find hstep, hle, hts, fun l hnl hlm => executing_until_step hrun hnl (fun k hnk hkl hk => ?_) he⟩
  exact Nat.find_min hstep (hkl.trans_le hlm) ⟨hnk, hk⟩

/-! ### An endless key wait -/

/-- A transaction in a key wait, no press and no `power_on`: the wait goes on, and only `tick_timers` moves the
timers. -/
theorem apply_waiting {x : Txn} {s t : State} {q : Nibble} {r : Reply} (hp : x ≠ .powerOn)
    (hk : ∀ k, x ≠ .setKey k true) (he : s.execState = .waitingForKey q) (h : x.apply s = .next (t, r)) :
    t.execState = .waitingForKey q ∧
      t.dt = (if x = .tickTimers then countDown s.dt else s.dt) ∧
      t.st = (if x = .tickTimers then countDown s.st else s.st) := by
  cases x
  case powerOn => exact absurd rfl hp
  case step =>
    have ht := (step_of_apply h).1
    rw [step_of_suspended (by simp [he])] at ht
    cases ht
    exact ⟨he, rfl, rfl⟩
  case initCore => cases h; rw [initCore_eq]; exact ⟨he, rfl, rfl⟩
  case load => cases h; rw [load_eq]; exact ⟨he, rfl, rfl⟩
  case tickTimers =>
    cases h
    rw [tickTimers_of_not_halted (by simp [isHalted, he])]
    exact ⟨he, rfl, rfl⟩
  case setKey k b =>
    cases b with
    | true => exact absurd rfl (hk k)
    | false =>
      cases h
      rw [setKey_release he]
      exact ⟨he, rfl, rfl⟩
  case consumeFrame => cases h; exact ⟨he, rfl, rfl⟩

/-- What is left on both timers. -/
def timersLeft (s : State) : Nat := s.dt.toNat + s.st.toNat

/-- A number that never rises, and that falls again and again while it is not 0, comes to 0 and stays there. -/
theorem eventually_eq_zero {μ : Nat → Nat} {n : Nat} (hmono : ∀ l, n ≤ l → μ (l + 1) ≤ μ l)
    (hdrop : ∀ m, n ≤ m → ∃ l, m ≤ l ∧ μ (l + 1) ≤ μ l - 1) : ∃ m, n ≤ m ∧ ∀ l, m ≤ l → μ l = 0 := by
  have hanti : ∀ {m l}, n ≤ m → m ≤ l → μ l ≤ μ m := fun {m l} hm hl => by
    induction l, hl using Nat.le_induction with
    | base => exact le_rfl
    | succ l hl ih => exact (hmono l (hm.trans hl)).trans ih
  have hfall : ∀ k, ∃ m, n ≤ m ∧ μ m ≤ μ n - k := fun k => by
    induction k with
    | zero => exact ⟨n, le_rfl, le_rfl⟩
    | succ k ih =>
      obtain ⟨m, hm, hμ⟩ := ih
      obtain ⟨l, hl, hd⟩ := hdrop m hm
      have := hanti hm hl
      exact ⟨l + 1, by omega, by omega⟩
  obtain ⟨m, hm, hμ⟩ := hfall (μ n)
  refine ⟨m, hm, fun l hl => ?_⟩
  have := hanti hm hl
  omega

section
variable {ts : Nat → Txn} {σ : Nat → State} {n : Nat} {q : Nibble} (hrun : IsRun ts σ)
  (hquiet : ∀ m, n ≤ m → ts m ≠ .powerOn ∧ ∀ k, ts m ≠ .setKey k true)
  (he : (σ n).execState = .waitingForKey q)
include hrun hquiet he

theorem waiting_forever {l : Nat} (hl : n ≤ l) : (σ l).execState = .waitingForKey q := by
  induction l, hl using Nat.le_induction with
  | base => exact he
  | succ l hl ih =>
    obtain ⟨hp, hk⟩ := hquiet l hl
    obtain ⟨r, hr⟩ := hrun l
    exact (apply_waiting hp hk ih hr).1

theorem timersLeft_succ {l : Nat} (hl : n ≤ l) :
    timersLeft (σ (l + 1)) ≤ timersLeft (σ l) ∧
      (ts l = .tickTimers → timersLeft (σ (l + 1)) ≤ timersLeft (σ l) - 1) := by
  obtain ⟨hp, hk⟩ := hquiet l hl
  obtain ⟨r, hr⟩ := hrun l
  obtain ⟨-, hdt, hst⟩ := apply_waiting hp hk (waiting_forever hrun hquiet he hl) hr
  unfold timersLeft
  rw [hdt, hst]
  split_ifs with htick
  · simp only [countDown_toNat]
    omega
  · exact ⟨le_rfl, fun h => absurd h htick⟩

end

theorem timersLeft_eq_zero {s : State} (h : timersLeft s = 0) : s.dt = 0 ∧ s.st = 0 := by
  unfold timersLeft at h
  constructor <;> bv_omega

/-- Settles O60: only a step leaves `Executing`, and fairness brings the next one; in a key wait that nothing ends
each of the infinitely many ticks takes something off the timers until nothing is left. -/
theorem fairRunsStepAndDrainTheTimers : Obligations.FairRunsStepAndDrainTheTimers := by
  refine fun ts σ hrun hfair n => ⟨exists_step_while_executing hrun hfair, fun q he hquiet => ?_⟩
  obtain ⟨m, hm, hzero⟩ := eventually_eq_zero (μ := fun l => timersLeft (σ l))
    (fun l hl => (timersLeft_succ hrun hquiet he hl).1) fun m hm => by
      obtain ⟨l, hl, htick⟩ := hfair.2 m
      exact ⟨l, hl, (timersLeft_succ hrun hquiet he (hm.trans hl)).2 htick⟩
  refine ⟨m, hm, fun l hl => ?_⟩
  obtain ⟨hdt, hst⟩ := timersLeft_eq_zero (hzero l hl)
  exact ⟨hdt, hst, waiting_forever hrun hquiet he (hm.trans hl)⟩

end Sys2Proof.Proofs.Runs
end

section
/-! PROOFS. What each instruction of control flow, of the ALU, of the keys and of the timers does
(spec/41_control_flow.md, spec/42_alu.md, spec/45_timers_input.md). -/
namespace Sys2Proof.Proofs.Instructions

open Sys2Proof Sys2Proof.Machine Sys2Proof.Safety Sys2Proof.Proofs.Effect Sys2Proof.Proofs.Step
  Sys2Proof.Proofs.ControlFlow Sys2Proof.Proofs.Alu

/-! ### Calls and returns -/

/-- Settles O23: a pop and a push that succeed. -/
theorem callPushesAndReturnPops : Obligations.CallPushesAndReturnPops := by
  refine ⟨fun s h => ?_, fun nnn s h => ?_⟩
  · rw [exec, execRet, pop_of_pos h]
    rfl
  · rw [exec, execCall, push_of_lt s.npc h]
    rfl

/-- Settles O24: the checks of 00EE and 2NNN fail at the limits of the stack. -/
theorem stackErrorsAtTheLimits : Obligations.StackErrorsAtTheLimits :=
  ⟨fun _ h => exec_of_fatal (if_pos h), fun _ _ h => exec_of_fatal (if_pos h)⟩

/-- Settles O25: the slot that the return pops is the one the call pushed. -/
theorem returnResumesAfterTheCall : Obligations.ReturnResumesAfterTheCall := by
  intro nnn s t u hroom hcall hstack hsp
  rw [callPushesAndReturnPops.2 nnn s hroom] at hcall
  cases hcall
  have hval : u.sp.val = s.sp.val + 1 := congrArg Fin.val hsp
  refine ⟨_, callPushesAndReturnPops.1 u (by omega), ?_, ?_, rfl⟩
  · simp [hstack, hval]
  · exact Fin.ext (by simp [hval])

/-- Settles O27: V0 is below 256 and `nnn` below 4096, so that the sum does not wrap. -/
theorem jumpWithOffsetAddsV0 : Obligations.JumpWithOffsetAddsV0 := by
  refine fun nnn s => ⟨s.setPc (zextByte (s.getV 0#4) + zextAddr nnn), rfl, ?_, rfl⟩
  have hv := (s.getV 0#4).isLt
  have hnnn := nnn.isLt
  rw [setPc_pc, BitVec.toNat_add, zextByte_toNat, zextAddr_toNat]
  omega

/-! ### The ALU -/

/-- The rule of the instructions that write VX and then a flag (R141): the flag wins when x = 15. -/
theorem next_setVWithFlag_advance (s : State) (x : Nibble) {r g : Byte} (P Q : Byte → Prop) (hr : P r) (hg : Q g) :
    ∃ t, (.next (s.setVWithFlag x r g).advance : Result) = .next t ∧ (x ≠ 0xF#4 → P (t.getV x)) ∧
      Q (t.getV 0xF#4) ∧ (∀ z, z ≠ x → z ≠ 0xF#4 → t.getV z = s.getV z) ∧
      t = { s with v := t.v, pc := s.pc + 2 } := by
  refine ⟨_, rfl, fun hx => ?_, ?_, fun z hz hzF => ?_, rfl⟩
  · rwa [advance_getV, setVWithFlag_getV, if_neg hx, if_pos rfl]
  · rwa [advance_getV, setVWithFlag_getV, if_pos rfl]
  · rw [advance_getV, setVWithFlag_getV, if_neg hzF, if_neg hz]

theorem flagOf_decide (p : Prop) [Decidable p] : flagOf (decide p) = if p then 1 else 0 := by
  simp only [flagOf, decide_eq_true_eq]

theorem noBorrowFlag_eq (a b : Byte) : noBorrowFlag a b = if b.toNat > a.toNat then 0 else 1 := by
  rw [noBorrowFlag, flagOf_decide]
  split_ifs
  · omega
  · rfl
  · rfl
  · omega

/-- Settles O31: the result is the sum modulo 256, the flag the carry. -/
theorem addSetsCarry : Obligations.AddSetsCarry := fun x y s =>
  next_setVWithFlag_advance s x (·.toNat = ((s.getV x).toNat + (s.getV y).toNat) % 256)
    (· = if (s.getV x).toNat + (s.getV y).toNat > 255 then 1 else 0) (addWrap_toNat _ _) (flagOf_decide _)

/-- Settles O32: the result is a difference modulo 256, the flag the not-borrow. -/
theorem subtractionsSetNotBorrow : Obligations.SubtractionsSetNotBorrow := fun x y s =>
  ⟨next_setVWithFlag_advance s x (·.toNat = ((s.getV x).toNat + 256 - (s.getV y).toNat) % 256)
      (· = if (s.getV y).toNat > (s.getV x).toNat then 0 else 1) (subWrap_toNat _ _) (noBorrowFlag_eq _ _),
    next_setVWithFlag_advance s x (·.toNat = ((s.getV y).toNat + 256 - (s.getV x).toNat) % 256)
      (· = if (s.getV x).toNat > (s.getV y).toNat then 0 else 1) (subWrap_toNat _ _) (noBorrowFlag_eq _ _)⟩

/-- Settles O33: the result is VX shifted by one, the flag the bit shifted out. -/
theorem shiftsKeepTheBitShiftedOut : Obligations.ShiftsKeepTheBitShiftedOut := fun x _ s =>
  ⟨next_setVWithFlag_advance s x (·.toNat = (s.getV x).toNat / 2) (·.toNat = (s.getV x).toNat % 2)
      (shiftRight1_toNat _) (lowBitFlag_toNat _),
    next_setVWithFlag_advance s x (·.toNat = (s.getV x).toNat * 2 % 256) (·.toNat = (s.getV x).toNat / 128)
      (shiftLeft1_toNat _) (highBitFlag_toNat _)⟩

/-- Settles O34: CXNN writes VX in the state whose count has moved on. -/
theorem randomIsMasked : Obligations.RandomIsMasked := by
  intro x nn s
  obtain ⟨t, hnext, hx, hz, ht⟩ :=
    next_setV_advance s.drawRnd.2 x (· = Config.rndByte s.rndCount &&& nn) rfl
  exact ⟨t, hnext, hx, hz, by rw [ht]; rfl, by rw [ht]; rfl⟩

/-! ### The index register -/

/-- Settles O36: `execAddIVx` takes the sum modulo 65536. -/
theorem addToIndexSetsNoFlag : Obligations.AddToIndexSetsNoFlag := by
  refine fun x s => ⟨_, rfl, ?_, rfl⟩
  rw [advance_i, setI_i, BitVec.toNat_ofNat, Nat.mod_mod]

/-! ### Keys and timers -/

theorem keyPressed_setWidth (s : State) (b : Byte) : s.keyPressed (b.setWidth 4) = s.key[b.toNat % 16] := by
  simp [State.keyPressed]

/-- The key index is there when VX names a key or is masked (R212). -/
theorem keyIndex_of_le_or_mask {p : Params} {v : Byte} (h : v.toNat ≤ 0xF ∨ p.keyIndexPolicy = .mask) :
    keyIndex p v = some (v.setWidth 4) := by
  rcases Nat.lt_or_ge 0xF v.toNat with hv | hv
  · rw [keyIndex_of_gt hv, h.resolve_left (Nat.not_le.mpr hv)]
  · exact keyIndex_of_le hv

/-- Settles O48: the key index is there, and the skip tests its latch. -/
theorem keySkipsTestTheLatch : Obligations.KeySkipsTestTheLatch := by
  intro x s h
  have hkey := keyIndex_of_le_or_mask h
  constructor
  · have hskip := next_skipIf_decide s (s.key[(s.getV x).toNat % 16] = true)
    rw [Bool.decide_eq_true] at hskip
    simpa only [exec, execSkp, hkey, keyPressed_setWidth] using hskip
  · have hskip := next_skipIf_decide s (s.key[(s.getV x).toNat % 16] = false)
    rw [Bool.decide_eq_false] at hskip
    simpa only [exec, execSknp, hkey, keyPressed_setWidth] using hskip

/-- Settles O49: the check of a key skip fails. -/
theorem keyIndexOutOfRangeRaises : Obligations.KeyIndexOutOfRangeRaises := by
  intro x s hv hpol
  have hfault : keyFault s x = some (.keyIndexFault, zextByte (s.getV x)) :=
    if_pos (by rw [keyIndex_of_gt hv, hpol])
  exact ⟨exec_of_fatal (i := .skp x) hfault, exec_of_fatal (i := .sknp x) hfault⟩

/-- Settles O51: `sound_active` is whether `ST` is not 0. -/
theorem soundTimerIsWritten : Obligations.SoundTimerIsWritten := by
  refine fun x s => ⟨(s.setSt (s.getV x)).advance, rfl, rfl, ?_, rfl⟩
  simp [State.soundActive, ← BitVec.toNat_inj]

/-- Settles O52: what FX0A answers, whatever the key latch holds. -/
theorem keyWaitSuspends : Obligations.KeyWaitSuspends := exec_ldVxK

end Sys2Proof.Proofs.Instructions
end

section
/-! PROOFS. The index register and memory blocks (spec/43_index_memory.md). -/
namespace Sys2Proof.Proofs.IndexMemory

open Sys2Proof Sys2Proof.Machine Sys2Proof.Safety Sys2Proof.Proofs.Effect Sys2Proof.Proofs.Blocks

/-! ### The font address -/

/-- Row `r` of glyph `k` is byte `5 k + r` of the font (R32). -/
theorem fontByte_glyph (p : Params) (k : Fin 16) (r : Fin 5) (h : 5 * k.val + r.val < Config.fontSize) :
    fontByte p (5 * k.val + r.val) h = (fontGlyph p k)[r] := by
  have hdiv : (5 * k.val + r.val) / 5 = k.val := by omega
  have hmod : (5 * k.val + r.val) % 5 = r.val := by omega
  simp only [fontByte, hdiv, hmod, Fin.getElem_fin]

/-- Settles O37: the address does not wrap, and the bytes from there are a row of five of the font. -/
theorem fontAddressPointsAtTheGlyph : Obligations.FontAddressPointsAtTheGlyph := by
  refine fun x s => ⟨_, rfl, glyphAddr_toNat _ _, rfl, fun hf r => ?_⟩
  have hlt : 5 * ((s.getV x).toNat % 16) + r.val < Config.fontSize := by
    simp only [Config.fontSize]
    omega
  have hrow := hf _ hlt
  rw [fontByte_glyph s.params ⟨(s.getV x).toNat % 16, Nat.mod_lt _ (by decide)⟩ r hlt] at hrow
  rw [advance_i, setI_i, glyphAddr_toNat, advance_readByte, setI_readByte, Nat.add_assoc]
  exact hrow

/-! ### Block writes -/

/-- Every byte of the block of `k` bytes at `I` may be written (R52, R54). -/
def MayWrite (s : State) (k : Nat) : Prop :=
  ∀ j, j < k → s.i.toNat + j ≤ 0xFFF ∧
    (s.params.fontWritePolicy = .fault → inFontRegion s.params (s.i.toNat + j) = false)

theorem writeFault_eq_none_iff (p : Params) (a : Nat) : writeFault p a = none ↔
    a ≤ 0xFFF ∧ (p.fontWritePolicy = .fault → inFontRegion p a = false) := by
  rw [writeFault_eq_none, not_and, Bool.not_eq_true]

theorem checkWrites_eq_none_iff (s : State) (k : Nat) :
    checkWrites s.params s.baseAddr k = none ↔ MayWrite s k := by
  simp only [checkWrites, checkBlock_eq_none, writeFault_eq_none_iff]
  rfl

/-- A block store that goes on to the next word changes memory and `pc` alone. -/
theorem storeBytes_advance_eq (s : State) (a : Nat) (bs : List Byte) :
    (s.storeBytes a bs).advance = { s with mem := (s.storeBytes a bs).mem, pc := s.pc + 2 } := by
  rw [storeBytes_eq]
  rfl

@[simp] theorem decimalDigits_length (v : Byte) : (decimalDigits v).length = 3 := rfl

/-- The digits as numbers; none is above 9, so that narrowing them to a byte loses nothing (R173). -/
theorem decimalDigits_toNat (v : Byte) :
    (decimalDigits v).map BitVec.toNat = [v.toNat / 100, v.toNat / 10 % 10, v.toNat % 10] := by
  have hv := v.isLt
  simp only [decimalDigits, List.map_cons, List.map_nil, BitVec.toNat_ofNat, List.cons.injEq, and_true]
  omega

/-- Settles O38: the check passes, and the three digits are a block store at `I`. -/
theorem decimalDigitsAreStored : Obligations.DecimalDigitsAreStored := by
  intro x s hw
  have digit : ∀ j (h : j < 3), ((effect (.ldBVx x) s).readByte (s.i.toNat + j)).toNat =
      ((decimalDigits (s.getV x)).map BitVec.toNat)[j]'(by simpa using h) := fun j h => by
    rw [List.getElem_map]
    exact congrArg BitVec.toNat (storeBytes_readByte_of_lt s s.baseAddr h)
  simp only [decimalDigits_toNat] at digit
  refine ⟨_, exec_of_not_fatal ((checkWrites_eq_none_iff s 3).mpr hw), digit 0 (by decide), digit 1 (by decide),
    digit 2 (by decide), fun a ha => storeBytes_readByte_of_out ha, storeBytes_advance_eq _ _ _⟩

/-- Settles O39: the check passes, and V0 to VX are a block store at `I`. -/
theorem registersAreStored : Obligations.RegistersAreStored := by
  intro x s hw
  refine ⟨_, exec_of_not_fatal ((checkWrites_eq_none_iff s (x.toNat + 1)).mpr fun j hj => hw j (by omega)),
    fun j hj => ?_, fun a ha => storeBytes_readByte_of_out ?_, storeBytes_advance_eq _ _ _⟩
  · have hlt : j.toNat < (s.regsUpTo x).length := by
      rw [regsUpTo_length]
      omega
    refine (storeBytes_readByte_of_lt s s.baseAddr hlt).trans ?_
    rw [regsUpTo_getElem, BitVec.ofNat_toNat, BitVec.setWidth_eq]
  · rw [regsUpTo_length]
    simp only [State.baseAddr]
    omega

/-- A block write raises at its first byte that may not be written (R174). -/
theorem checkWrites_first {s : State} {j k : Nat} {f : Fault} (hj : j < k) (hbelow : MayWrite s j)
    (hf : writeFault s.params (s.i.toNat + j) = some f) :
    checkWrites s.params s.baseAddr k = some (f, BitVec.ofNat 16 (s.i.toNat + j)) :=
  checkBlock_eq_some.mpr ⟨j, hj, hf, rfl, fun l hl => (writeFault_eq_none_iff _ _).mpr (hbelow l hl)⟩

/-- Settles O40: both instructions check the writes of their block, and the first failing address decides. -/
theorem blockWritesRaiseAtTheLowestAddress : Obligations.BlockWritesRaiseAtTheLowestAddress := by
  intro x s k i hi j hj hbelow
  have hfatal : fatal i s = checkWrites s.params s.baseAddr k := by
    rcases hi with ⟨rfl, rfl⟩ | ⟨rfl, rfl⟩ <;> rfl
  refine ⟨fun hout => ?_, fun hmem hpol hfont => ?_⟩ <;>
    refine exec_of_fatal (hfatal.trans (checkWrites_first hj hbelow ?_))
  · exact if_pos hout
  · rw [writeFault, if_neg (Nat.not_lt.mpr hmem), if_pos ⟨hpol, hfont⟩]

/-! ### Block reads -/

/-- A block load that goes on to the next word changes the registers and `pc` alone. -/
theorem loadRegs_advance_eq (s : State) (a k : Nat) :
    (s.loadRegs a k).advance = { s with v := (s.loadRegs a k).v, pc := s.pc + 2 } := by
  simp only [State.loadRegs, State.advance, State.setPc, npc_eq]

/-- Settles O41: the check passes, and the registers below the block's length take its bytes. -/
theorem registersAreLoaded : Obligations.RegistersAreLoaded := by
  intro x s hmem
  have hpass : fatal (.ldRegs x) s = none := by
    refine (checkReads_eq_none _ _).mpr (.inr ?_)
    simp only [State.baseAddr]
    omega
  refine ⟨_, exec_of_not_fatal hpass, fun j => ?_, loadRegs_advance_eq _ _ _⟩
  simp only [effect, advance_getV, loadRegs_getV, Nat.lt_succ_iff]
  rfl

/-- A block read that leaves memory raises with `max(I, 0x1000)` (R52, R240). -/
theorem checkReads_out {s : State} {k : Nat} (hk : 0 < k) (hout : 0x1000 < s.i.toNat + k) :
    checkReads s.baseAddr k = some (.boundsError, BitVec.ofNat 16 (max s.i.toNat 0x1000)) := by
  cases hc : checkReads s.baseAddr k with
  | none =>
    have hin := (checkReads_eq_none _ _).mp hc
    simp only [State.baseAddr] at hin
    omega
  | some q =>
    obtain ⟨hf, hw, -⟩ := checkReads_eq_some hc
    rw [← hf, ← State.baseAddr, ← hw]

/-- Settles O42: both instructions check the reads of their block. -/
theorem blockReadsRaiseAtTheLowestAddress : Obligations.BlockReadsRaiseAtTheLowestAddress :=
  fun x y n _ => ⟨fun hout => exec_of_fatal (i := .ldRegs x) (checkReads_out (Nat.succ_pos _) (by omega)),
    fun hn hout => exec_of_fatal (i := .drw x y n) (checkReads_out hn hout)⟩

/-! ### Stores seen by later reads -/

/-- FX55 that raised nothing stored its registers inside memory, and moved neither `I` nor anything else but
`pc`. -/
theorem stRegs_stored {x : Nibble} {s t : State} (h : exec (.stRegs x) s = .next t)
    (ht : t.execState = .executing) :
    MayWrite s (x.toNat + 1) ∧
      (∀ j : Nibble, j.toNat ≤ x.toNat → t.readByte (s.i.toNat + j.toNat) = s.getV j) ∧ t.i = s.i := by
  have hw : MayWrite s (x.toNat + 1) := by
    rcases exec_cases h with ⟨f, w, -, rfl⟩ | ⟨hc, -⟩
    · cases ht
    · exact (checkWrites_eq_none_iff s _).mp hc
  obtain ⟨u, hu, hstored, -, hframe⟩ := registersAreStored x s fun j hj => hw j (by omega)
  rw [hu] at h
  cases h
  exact ⟨hw, hstored, by rw [hframe]⟩

/-- Settles O43: the load reads the block that the store left. -/
theorem storeThenLoadRestoresRegisters : Obligations.StoreThenLoadRestoresRegisters := by
  intro x s t u h ht hp hm hi
  obtain ⟨hw, hstored, hti⟩ := stRegs_stored h ht
  have hui : u.i = s.i := hi.trans hti
  obtain ⟨r, hr, hload, -⟩ := registersAreLoaded x u (by rw [hui]; exact (hw _ (Nat.lt_succ_self _)).1)
  refine ⟨r, hr, fun j => ?_⟩
  rw [hload, hui]
  split_ifs with hj
  · rw [readByte_congr hp hm, hstored j hj]
  · rfl

/-- Settles O44: the two bytes of the fetched word are the registers stored there. -/
theorem fetchSeesEarlierStores : Obligations.FetchSeesEarlierStores := by
  intro x s t u hx h ht hp hm hpc
  obtain ⟨-, hstored, -⟩ := stRegs_stored h ht
  have h0 : t.readByte s.i.toNat = s.getV 0#4 := hstored 0#4 (Nat.zero_le _)
  have h1 : t.readByte (s.i.toNat + 1) = s.getV 1#4 := hstored 1#4 hx
  rw [State.fetchWord, hpc, readByte_congr hp hm, readByte_congr hp hm, h0, h1]

end Sys2Proof.Proofs.IndexMemory
end

section
/-! PROOFS. Drawing a sprite (spec/44_display.md R192 to R194). -/
namespace Sys2Proof.Proofs.Sprites

open Sys2Proof Sys2Proof.Machine Sys2Proof.Safety Sys2Proof.Proofs.Effect Sys2Proof.Proofs.Blocks

/-- The sprite of DXYN has its bit for screen position (X, Y) set (R192, R193). -/
def covers (s : State) (x y n : Nibble) (X Y : Nat) : Bool :=
  spriteCovers ((s.getV x).toNat % 64) ((s.getV y).toNat % 32) (s.readBytes s.baseAddr n.toNat) X Y

theorem spriteCovers_iff (s : State) (x0 y0 a k X Y : Nat) :
    spriteCovers x0 y0 (s.readBytes a k) X Y = true ↔
      ∃ r c, r < k ∧ c < 8 ∧ X = x0 + c ∧ Y = y0 + r ∧ (s.readByte (a + r)).getLsbD (7 - c) = true := by
  simp only [spriteCovers, Bool.and_eq_true, decide_eq_true_eq, readBytes_getElem?]
  constructor
  · rintro ⟨⟨hlo, hhi, hy⟩, hbit⟩
    split_ifs at hbit with hr
    exact ⟨Y - y0, X - x0, hr, by omega, by omega, by omega, hbit⟩
  · rintro ⟨r, c, hr, hc, rfl, rfl, hbit⟩
    refine ⟨⟨by omega, by omega, by omega⟩, ?_⟩
    rw [Nat.add_sub_cancel_left, Nat.add_sub_cancel_left, if_pos hr]
    exact hbit

section
variable (s : State) (x y n : Nibble)

theorem drawn_pixel {X Y : Nat} (hX : X < 64) (hY : Y < 32) :
    (s.drawn x y n).1.pixel X Y = (s.fb.pixel X Y ^^ covers s x y n X Y) :=
  (drawRows_spec _ _ _ _).1 X Y hX hY

theorem drawn_collision : (s.drawn x y n).2 = true ↔
    ∃ X Y, X < 64 ∧ Y < 32 ∧ covers s x y n X Y = true ∧ s.fb.pixel X Y = true := by
  refine (drawRows_spec _ _ _ _).2.trans ?_
  simp only [Bool.false_eq_true, false_or]
  rfl

theorem effect_drw_fb : (effect (.drw x y n) s).fb = (s.drawn x y n).1 := rfl

theorem effect_drw_VF : (effect (.drw x y n) s).getV 0xF#4 = flagOf (s.drawn x y n).2 := by
  simp [effect]

end

theorem flagOf_eq_zero_or (b : Bool) : flagOf b = 0 ∨ flagOf b = 1 := by
  cases b
  · exact .inl rfl
  · exact .inr rfl

theorem flagOf_eq_one (b : Bool) : flagOf b = 1 ↔ b = true := by
  cases b <;> decide

/-- A sprite that lies in memory is drawn (R192). -/
theorem exec_drw {s : State} {n : Nibble} (x y : Nibble) (h : n.toNat = 0 ∨ s.i.toNat + n.toNat ≤ 0x1000) :
    exec (.drw x y n) s = .next (effect (.drw x y n) s) :=
  exec_of_not_fatal ((checkReads_eq_none _ _).mpr h)

/-- Settles O46: each pixel is XORed with the sprite's bit for it, so that it changes exactly where the bit is 1,
and goes from 1 to 0 exactly where both were 1. -/
theorem drawXorsTheSprite : Obligations.DrawXorsTheSprite := by
  intro x y n s h
  refine ⟨_, exec_drw x y h, fun X Y hX hY => ?_, ?_, ?_, fun z hz => ?_, rfl⟩
  · rw [effect_drw_fb, drawn_pixel s x y n hX hY, ← State.baseAddr, ← spriteCovers_iff]
    change _ ↔ covers s x y n X Y = true
    cases s.fb.pixel X Y <;> cases covers s x y n X Y <;> decide
  · rw [effect_drw_VF]
    exact flagOf_eq_zero_or _
  · rw [effect_drw_VF, flagOf_eq_one, drawn_collision, effect_drw_fb]
    refine exists_congr fun X => exists_congr fun Y => and_congr_right fun hX => and_congr_right fun hY => ?_
    rw [drawn_pixel s x y n hX hY]
    cases s.fb.pixel X Y <;> cases covers s x y n X Y <;> decide
  · simp [effect, hz]

/-- Settles O47: the second draw XORs the same sprite again; on a clear screen the pixels that the first draw set
are those the sprite covers. -/
theorem drawingTwiceRestoresTheScreen : Obligations.DrawingTwiceRestoresTheScreen := by
  intro x y n s t u h hdraw hp hm hi hfb hx hy
  rw [exec_drw x y h] at hdraw
  cases hdraw
  have hcovers : covers u x y n = covers s x y n := by
    funext X Y
    simp only [covers, hx, hy, State.baseAddr, hi, readBytes_congr hp hm]
  have hpixel : ∀ {X Y}, X < 64 → Y < 32 → u.fb.pixel X Y = (s.fb.pixel X Y ^^ covers s x y n X Y) :=
    fun hX hY => by rw [hfb, effect_drw_fb, drawn_pixel s x y n hX hY]
  refine ⟨_, exec_drw x y (by rwa [hi]), frame_ext fun X Y hX hY => ?_, fun hblank => ?_⟩
  · rw [effect_drw_fb, drawn_pixel u x y n hX hY, hcovers, hpixel hX hY, Bool.xor_assoc, Bool.xor_self,
      Bool.xor_false]
  · rw [effect_drw_VF, flagOf_eq_one, drawn_collision, hcovers, ← hfb, hblank]
    constructor
    · rintro ⟨X, Y, -, -, -, hset⟩ hsame
      rw [hsame, blank_pixel] at hset
      cases hset
    · intro hne
      by_contra hnone
      refine hne (frame_ext fun X Y hX hY => ?_)
      rw [hpixel hX hY, hblank, blank_pixel, Bool.false_xor]
      by_contra hset
      rw [Bool.not_eq_false] at hset
      exact hnone ⟨X, Y, hX, hY, hset, by rw [hpixel hX hY, hblank, blank_pixel, Bool.false_xor, hset]⟩

end Sys2Proof.Proofs.Sprites
end

section
/-! PROOFS. No step reads `ST` or `dirty` (spec/10_state.md R30, R36). -/
namespace Sys2Proof.Proofs.NeverRead

open Sys2Proof Sys2Proof.Machine Sys2Proof.Proofs.Effect Sys2Proof.Proofs.Step Sys2Proof.Proofs.Blocks
  Sys2Proof.Proofs.IndexMemory

/-- The state with other contents of `ST` and `dirty`. -/
def twin (s : State) (b : Byte) (d : Bool) : State := { s with st := b, dirty := d }

theorem fatal_twin (i : Instr) (s : State) (b : Byte) (d : Bool) : fatal i (twin s b d) = fatal i s := by
  cases i <;> rfl

theorem drawn_twin (s : State) (b : Byte) (d : Bool) (x y n : Nibble) :
    (twin s b d).drawn x y n = s.drawn x y n :=
  congrArg (drawRows _ _ · _) (readBytes_congr (u := twin s b d) (s := s) rfl rfl _ _)

theorem storeBytes_advance_twin (s : State) (b : Byte) (d : Bool) (a : Nat) (bs : List Byte) :
    ((twin s b d).storeBytes a bs).advance = twin (s.storeBytes a bs).advance b d := by
  rw [storeBytes_advance_eq, storeBytes_advance_eq, storeBytes_mem_congr (u := twin s b d) (s := s) rfl rfl]
  rfl

/-- The effect of an instruction is the same but for `ST` and `dirty`. -/
theorem effect_twin (i : Instr) (s : State) (b : Byte) (d : Bool) :
    effect i (twin s b d) = twin (effect i s) (effect i (twin s b d)).st (effect i (twin s b d)).dirty := by
  cases i
  case drw x y n =>
    simp only [effect, drawn_twin]
    rfl
  case ldBVx x | stRegs x =>
    simp only [effect]
    rw [storeBytes_advance_twin]
    rfl
  all_goals rfl

theorem exec_twin {i : Instr} {s t : State} (h : exec i s = .next t) (b : Byte) (d : Bool) :
    ∃ u, exec i (twin s b d) = .next u ∧ u = twin t u.st u.dirty := by
  rcases exec_cases h with ⟨f, w, hf, rfl⟩ | ⟨hf, rfl⟩ <;> rw [← fatal_twin i s b d] at hf
  · exact ⟨_, exec_of_fatal hf, rfl⟩
  · exact ⟨_, exec_of_not_fatal hf, effect_twin i s b d⟩

/-- Settles O22: the fetch and the decode are the same, and so is what the instruction does. -/
theorem soundTimerAndDirtyAreNeverRead : Obligations.SoundTimerAndDirtyAreNeverRead := by
  intro s t b d h
  have hcycle : (twin s b d).cycle = s.cycle := rfl
  change ∃ u, step (twin s b d) = .next u ∧ u = twin t u.st u.dirty
  unfold step at h ⊢
  rw [hcycle]
  split at h
  · cases h
    exact ⟨_, rfl, rfl⟩
  · cases h
    exact ⟨_, rfl, rfl⟩
  · exact exec_twin h b d

end Sys2Proof.Proofs.NeverRead
end
